-- ==== Sys2Proof/Word.lean ====
section
/-! DEFINITION. The word types of the block: `00_scope.md` rules R5, R8, R9. All of them are unsigned numbers. -/

namespace Sys2Proof

/-- A Limb: "an unsigned 64-bit word; the atomic unit of representation" (R5). A lane is a Limb too (R200). -/
abbrev Limb := BitVec 64

/-- A byte of the byte-array ports `BI` and `BO` (`47_byte_interop.md`). -/
abbrev Byte := BitVec 8

/-- The command word on port `CMD` (`30_encoding.md` rule R60). -/
abbrev CmdWord := BitVec 16

/-- A lane mask on port `K` or `KOUT`: bit i belongs to lane i (R43, R215). -/
abbrev LaneMask := BitVec 8

/-- The `IMM` field: an unsigned shift count of 0 to 63 (R65). -/
abbrev Count := BitVec 6

end Sys2Proof
end

