-- ==== Sys2Proof/Config.lean ====
section
/-! DEFINITION. What is fixed for one instance of the block: `00_scope.md` rules R5, R6, R7. -/

namespace Sys2Proof

/-- The one open parameter of an instance (R6, R28): a claim names its value or quantifies over it. -/
structure Config where
  /-- `VCAP`: true (1) iff the instance supports "the relevant 512-bit vector instruction set". -/
  vcap : Bool
  deriving DecidableEq, Repr

namespace Config

/-- `LIMB_BITS` (R5). -/
abbrev limbBits : Nat := 64
/-- `LANES` (R5). -/
abbrev lanes : Nat := 8
/-- Limbs of the operand ports `A` and `B` (R7, R24). -/
abbrev operandLimbs : Nat := 16
/-- Limbs of the result port `R` (R7, R24). -/
abbrev resultLimbs : Nat := 32
/-- Bytes of the byte ports `BI` and `BO` (R7, R24). -/
abbrev portBytes : Nat := 128

/-- DESIGN CHOICE (unsafe, log entry 1): the instance that `State.reset` stands for has the vector capability.
R6 leaves the value open; no statement rests on it. -/
def atReset : Config := ⟨true⟩

end Config
end Sys2Proof
end

