-- ==== Sys2Proof/Syntax.lean ====
section
/-! DEFINITION. The commands of the block: one constructor of `Instr` per row of spec/opcode_table.json
(`30_encoding.md` rule R66). -/

namespace Sys2Proof

/-- The operand width of a fixed-width operation, in limbs (R5, R64). -/
inductive Width where
  /-- 2 limbs, 128 bits, `W = 0`. -/
  | w2
  /-- 4 limbs, 256 bits, `W = 1`. -/
  | w4
  /-- 8 limbs, 512 bits, `W = 2`. -/
  | w8
  /-- 16 limbs, 1024 bits, `W = 3`. -/
  | w16
  deriving DecidableEq, Repr

/-- The path of a vector command, the command bit `FB` (R63, R200). -/
inductive Path where
  /-- `FB = 0`: the vector datapath, which needs `VCAP = 1`. -/
  | vector
  /-- `FB = 1`: the scalar fallback datapath. -/
  | fallback
  deriving DecidableEq, Repr

/-- The five formats (R61): which fields of the command word an operation uses. -/
inductive Format where
  /-- Plain: `OP` only. -/
  | p
  /-- Width: `OP`, `W`. -/
  | w
  /-- `MULK`'s limit on format `W`: only `W = 0` and `W = 1` (R64). -/
  | wk
  /-- Width and immediate: `OP`, `W`, `IMM`. -/
  | wi
  /-- Vector: `OP`, `FB`. -/
  | v
  /-- Vector and immediate: `OP`, `FB`, `IMM`. -/
  | vi
  deriving DecidableEq, Repr

/-- A command: an operation with its field values (R66, R67). -/
inductive Instr where
  -- scalar primitives (40_scalar_primitives.md)
  | adc
  | sbb
  | mul64
  | sqr64
  -- fixed-width operations (41 to 44)
  | add (w : Width)
  | sub (w : Width)
  | muls (w : Width)
  | mulw (w : Width)
  | shl (w : Width) (bits : Count)
  | shr (w : Width) (bits : Count)
  | eq (w : Width)
  | lt (w : Width)
  | gt (w : Width)
  | clz (w : Width)
  | iszero (w : Width)
  | iseven (w : Width)
  -- Karatsuba and squaring (45_karatsuba.md)
  | mulk (w : Width)
  | sqr (w : Width)
  -- the vector kernel (46_vector_8l.md)
  | vxor (p : Path)
  | vand (p : Path)
  | vor (p : Path)
  | vadd (p : Path)
  | vsub (p : Path)
  | vshli (p : Path) (count : Count)
  | vshri (p : Path) (count : Count)
  | vshlv (p : Path)
  | vshrv (p : Path)
  | veq (p : Path)
  | vltm (p : Path)
  | vgtm (p : Path)
  | vmin (p : Path)
  | vmax (p : Path)
  | vblend (p : Path)
  | vperm (p : Path)
  | vsplat (p : Path)
  | vzero (p : Path)
  -- byte interop (47_byte_interop.md)
  | tobe (w : Width)
  | tole (w : Width)
  | frombe (w : Width)
  | fromle (w : Width)
  -- capability query (48_capability_query.md)
  | vcapq
  deriving DecidableEq, Repr

/-- `N_of(W)`: the width in limbs (R64). -/
def Width.limbs : Width → Nat
  | .w2 => 2
  | .w4 => 4
  | .w8 => 8
  | .w16 => 16

end Sys2Proof
end

