-- ==== Sys2Proof/WellFormed.lean ====
section
/-! DEFINITION. Which terms of `Instr` are commands of the block. The types of the fields say all of it but one thing:
`MULK` exists at 2 and 4 limbs only (`30_encoding.md` rule R64, `45_karatsuba.md` rule R175). -/

namespace Sys2Proof

/-- The widths `MULK` has (R64: "only `W = 0` and `W = 1` are legal"). -/
def Width.karatsuba : Width → Bool
  | .w2 => true
  | .w4 => true
  | .w8 => false
  | .w16 => false

/-- The checks of rule R67 that the types of the fields do not already make. -/
def Instr.wellFormed : Instr → Bool
  | .adc => true
  | .sbb => true
  | .mul64 => true
  | .sqr64 => true
  | .add _ => true
  | .sub _ => true
  | .muls _ => true
  | .mulw _ => true
  | .shl _ _ => true
  | .shr _ _ => true
  | .eq _ => true
  | .lt _ => true
  | .gt _ => true
  | .clz _ => true
  | .iszero _ => true
  | .iseven _ => true
  | .mulk w => w.karatsuba
  | .sqr _ => true
  | .vxor _ => true
  | .vand _ => true
  | .vor _ => true
  | .vadd _ => true
  | .vsub _ => true
  | .vshli _ _ => true
  | .vshri _ _ => true
  | .vshlv _ => true
  | .vshrv _ => true
  | .veq _ => true
  | .vltm _ => true
  | .vgtm _ => true
  | .vmin _ => true
  | .vmax _ => true
  | .vblend _ => true
  | .vperm _ => true
  | .vsplat _ => true
  | .vzero _ => true
  | .tobe _ => true
  | .tole _ => true
  | .frombe _ => true
  | .fromle _ => true
  | .vcapq => true

/-- `i` is a command of the block. -/
abbrev Instr.WellFormed (i : Instr) : Prop := i.wellFormed = true

end Sys2Proof
end

