-- ==== Sys2Proof/Decode.lean ====
section
/-! DEFINITION. The command word: its fields, the opcode map, decoding and encoding, the written form
(`30_encoding.md` rules R60 to R72). Decoding is total; a reserved word is rejected under the name of the check of
rule R67 that it fails. -/

namespace Sys2Proof

/-! ## Fields (R60) -/

/-- `OP = CMD[6:0]`. -/
def opField (cmd : CmdWord) : BitVec 7 := cmd.extractLsb' 0 7
/-- `FB = CMD[7]`. -/
def fbField (cmd : CmdWord) : BitVec 1 := cmd.extractLsb' 7 1
/-- `W = CMD[9:8]`. -/
def wField (cmd : CmdWord) : BitVec 2 := cmd.extractLsb' 8 2
/-- `IMM = CMD[15:10]`, "used as it stands" (R65). -/
def immField (cmd : CmdWord) : Count := cmd.extractLsb' 10 6

/-- `CMD = IMM·1024 + W·256 + FB·128 + OP` (R72). -/
def pack (imm : Count) (w : BitVec 2) (fb : BitVec 1) (op : BitVec 7) : CmdWord :=
  BitVec.ofNat 16 (imm.toNat * 1024 + w.toNat * 256 + fb.toNat * 128 + op.toNat)

/-- The width code `W` of a width (R64: `N_of(W) = 2^(W+1)`). -/
def Width.code : Width → BitVec 2
  | .w2 => 0
  | .w4 => 1
  | .w8 => 2
  | .w16 => 3

/-- The width that `W` selects (R64); every code is used. -/
def Width.ofCode (w : BitVec 2) : Width :=
  match w.toNat with
  | 0 => .w2
  | 1 => .w4
  | 2 => .w8
  | _ => .w16

/-- The bit `FB` of a path (R63). -/
def Path.bit : Path → BitVec 1
  | .vector => 0
  | .fallback => 1

/-- The path that `FB` selects (R63). -/
def Path.ofBit (fb : BitVec 1) : Path := if fb = 0 then .vector else .fallback

/-! ## The opcode map (R66) -/

/-- The mnemonic of a command, as spec/opcode_table.json spells it. -/
def Instr.mnemonic : Instr → String
  | .adc => "ADC"
  | .sbb => "SBB"
  | .mul64 => "MUL64"
  | .sqr64 => "SQR64"
  | .add _ => "ADD"
  | .sub _ => "SUB"
  | .muls _ => "MULS"
  | .mulw _ => "MULW"
  | .shl _ _ => "SHL"
  | .shr _ _ => "SHR"
  | .eq _ => "EQ"
  | .lt _ => "LT"
  | .gt _ => "GT"
  | .clz _ => "CLZ"
  | .iszero _ => "ISZERO"
  | .iseven _ => "ISEVEN"
  | .mulk _ => "MULK"
  | .sqr _ => "SQR"
  | .vxor _ => "VXOR"
  | .vand _ => "VAND"
  | .vor _ => "VOR"
  | .vadd _ => "VADD"
  | .vsub _ => "VSUB"
  | .vshli _ _ => "VSHLI"
  | .vshri _ _ => "VSHRI"
  | .vshlv _ => "VSHLV"
  | .vshrv _ => "VSHRV"
  | .veq _ => "VEQ"
  | .vltm _ => "VLTM"
  | .vgtm _ => "VGTM"
  | .vmin _ => "VMIN"
  | .vmax _ => "VMAX"
  | .vblend _ => "VBLEND"
  | .vperm _ => "VPERM"
  | .vsplat _ => "VSPLAT"
  | .vzero _ => "VZERO"
  | .tobe _ => "TOBE"
  | .tole _ => "TOLE"
  | .frombe _ => "FROMBE"
  | .fromle _ => "FROMLE"
  | .vcapq => "VCAPQ"

/-- One row of the opcode map: mnemonic, `OP` and format (R66, spec/opcode_table.json). -/
structure OpcodeRow where
  mnemonic : String
  op       : BitVec 7
  format   : Format
  deriving DecidableEq, Repr

/-- The `mask` of a format (R61): 1 in every bit position whose value is fixed. -/
def Format.mask : Format → CmdWord
  | .p => 0xFFFF
  | .w => 0xFCFF
  | .wk => 0xFEFF
  | .wi => 0x00FF
  | .v => 0xFF7F
  | .vi => 0x037F

/-- The `match` of a row (R61): its `OP` value zero-extended to 16 bits. -/
def OpcodeRow.matchWord (r : OpcodeRow) : CmdWord := r.op.zeroExtend 16

/-- The 41 rows of rule R66, in its order. -/
def opcodeTable : List OpcodeRow :=
  [⟨"ADC", 0x01, .p⟩, ⟨"SBB", 0x02, .p⟩, ⟨"MUL64", 0x03, .p⟩, ⟨"SQR64", 0x04, .p⟩] ++
  [⟨"ADD", 0x10, .w⟩, ⟨"SUB", 0x11, .w⟩, ⟨"MULS", 0x12, .w⟩, ⟨"MULW", 0x13, .w⟩,
   ⟨"SHL", 0x14, .wi⟩, ⟨"SHR", 0x15, .wi⟩, ⟨"EQ", 0x16, .w⟩, ⟨"LT", 0x17, .w⟩, ⟨"GT", 0x18, .w⟩,
   ⟨"CLZ", 0x19, .w⟩, ⟨"ISZERO", 0x1A, .w⟩, ⟨"ISEVEN", 0x1B, .w⟩] ++
  [⟨"MULK", 0x20, .wk⟩, ⟨"SQR", 0x21, .w⟩] ++
  [⟨"VXOR", 0x30, .v⟩, ⟨"VAND", 0x31, .v⟩, ⟨"VOR", 0x32, .v⟩, ⟨"VADD", 0x33, .v⟩, ⟨"VSUB", 0x34, .v⟩,
   ⟨"VSHLI", 0x35, .vi⟩, ⟨"VSHRI", 0x36, .vi⟩, ⟨"VSHLV", 0x37, .v⟩, ⟨"VSHRV", 0x38, .v⟩,
   ⟨"VEQ", 0x39, .v⟩, ⟨"VLTM", 0x3A, .v⟩, ⟨"VGTM", 0x3B, .v⟩, ⟨"VMIN", 0x3C, .v⟩, ⟨"VMAX", 0x3D, .v⟩,
   ⟨"VBLEND", 0x3E, .v⟩, ⟨"VPERM", 0x3F, .v⟩, ⟨"VSPLAT", 0x40, .v⟩, ⟨"VZERO", 0x41, .v⟩] ++
  [⟨"TOBE", 0x50, .w⟩, ⟨"TOLE", 0x51, .w⟩, ⟨"FROMBE", 0x52, .w⟩, ⟨"FROMLE", 0x53, .w⟩] ++
  [⟨"VCAPQ", 0x60, .p⟩]

/-! ## Decoding (R67) -/

/-- Why a word is reserved (R67, R68): the check of the decoding procedure that it fails. -/
inductive Reserved where
  /-- Step 1: "if no row of rule R66 has it, the word is reserved". -/
  | noSuchOp
  /-- Step 2: "if any must-be-zero field of that format is nonzero, the word is reserved". -/
  | fieldNotZero
  /-- Step 3: "If the row is `MULK` and `CMD[9] = 1`, the word is reserved". -/
  | mulkWidth
  deriving DecidableEq, Repr

/-- Format `P`: `FB`, `W` and `IMM` must be zero. -/
def decodeP (cmd : CmdWord) (i : Instr) : Except Reserved Instr :=
  if fbField cmd = 0 ∧ wField cmd = 0 ∧ immField cmd = 0 then .ok i else .error .fieldNotZero

/-- Format `W`: `FB` and `IMM` must be zero. -/
def decodeW (cmd : CmdWord) (f : Width → Instr) : Except Reserved Instr :=
  if fbField cmd = 0 ∧ immField cmd = 0 then .ok (f (Width.ofCode (wField cmd))) else .error .fieldNotZero

/-- `MULK`: format `W`, and `CMD[9]` must be 0. -/
def decodeMulk (cmd : CmdWord) : Except Reserved Instr :=
  if fbField cmd = 0 ∧ immField cmd = 0 then
    if cmd.getLsbD 9 then .error .mulkWidth else .ok (.mulk (Width.ofCode (wField cmd)))
  else .error .fieldNotZero

/-- Format `WI`: `FB` must be zero. -/
def decodeWI (cmd : CmdWord) (f : Width → Count → Instr) : Except Reserved Instr :=
  if fbField cmd = 0 then .ok (f (Width.ofCode (wField cmd)) (immField cmd)) else .error .fieldNotZero

/-- Format `V`: `W` and `IMM` must be zero. -/
def decodeV (cmd : CmdWord) (f : Path → Instr) : Except Reserved Instr :=
  if wField cmd = 0 ∧ immField cmd = 0 then .ok (f (Path.ofBit (fbField cmd))) else .error .fieldNotZero

/-- Format `VI`: `W` must be zero. -/
def decodeVI (cmd : CmdWord) (f : Path → Count → Instr) : Except Reserved Instr :=
  if wField cmd = 0 then .ok (f (Path.ofBit (fbField cmd)) (immField cmd)) else .error .fieldNotZero

/-- The decoding procedure of rule R67, total on the 65,536 words. -/
def decode (cmd : CmdWord) : Except Reserved Instr :=
  match (opField cmd).toNat with
  | 0x01 => decodeP cmd .adc
  | 0x02 => decodeP cmd .sbb
  | 0x03 => decodeP cmd .mul64
  | 0x04 => decodeP cmd .sqr64
  | 0x10 => decodeW cmd .add
  | 0x11 => decodeW cmd .sub
  | 0x12 => decodeW cmd .muls
  | 0x13 => decodeW cmd .mulw
  | 0x14 => decodeWI cmd .shl
  | 0x15 => decodeWI cmd .shr
  | 0x16 => decodeW cmd .eq
  | 0x17 => decodeW cmd .lt
  | 0x18 => decodeW cmd .gt
  | 0x19 => decodeW cmd .clz
  | 0x1A => decodeW cmd .iszero
  | 0x1B => decodeW cmd .iseven
  | 0x20 => decodeMulk cmd
  | 0x21 => decodeW cmd .sqr
  | 0x30 => decodeV cmd .vxor
  | 0x31 => decodeV cmd .vand
  | 0x32 => decodeV cmd .vor
  | 0x33 => decodeV cmd .vadd
  | 0x34 => decodeV cmd .vsub
  | 0x35 => decodeVI cmd .vshli
  | 0x36 => decodeVI cmd .vshri
  | 0x37 => decodeV cmd .vshlv
  | 0x38 => decodeV cmd .vshrv
  | 0x39 => decodeV cmd .veq
  | 0x3A => decodeV cmd .vltm
  | 0x3B => decodeV cmd .vgtm
  | 0x3C => decodeV cmd .vmin
  | 0x3D => decodeV cmd .vmax
  | 0x3E => decodeV cmd .vblend
  | 0x3F => decodeV cmd .vperm
  | 0x40 => decodeV cmd .vsplat
  | 0x41 => decodeV cmd .vzero
  | 0x50 => decodeW cmd .tobe
  | 0x51 => decodeW cmd .tole
  | 0x52 => decodeW cmd .frombe
  | 0x53 => decodeW cmd .fromle
  | 0x60 => decodeP cmd .vcapq
  | _ => .error .noSuchOp

/-- The command word of `nbits ≤ 16` table bits: the bits above them are 0 (R69: every command is 16 bits). -/
def tableCmd (nbits w : Nat) : CmdWord := BitVec.ofNat 16 (w % 2 ^ nbits)

/-- The instruction the decoder reads from a word of spec/opcode_table.json. The word travels on the port `CMD` whole,
so it has no byte order (R42: "There is no instruction fetch, so no fetch byte order"). -/
def decodeTableWord (nbits w : Nat) : Option Instr :=
  match decode (tableCmd nbits w) with
  | .ok i => some i
  | .error _ => none

/-! ## Encoding (R60 to R66, R72) -/

/-- The word of an instruction: rule R72's sum over the `OP` of rule R66 and the fields of its format. -/
def encode : Instr → CmdWord
  | .adc => pack 0 0 0 0x01
  | .sbb => pack 0 0 0 0x02
  | .mul64 => pack 0 0 0 0x03
  | .sqr64 => pack 0 0 0 0x04
  | .add w => pack 0 w.code 0 0x10
  | .sub w => pack 0 w.code 0 0x11
  | .muls w => pack 0 w.code 0 0x12
  | .mulw w => pack 0 w.code 0 0x13
  | .shl w n => pack n w.code 0 0x14
  | .shr w n => pack n w.code 0 0x15
  | .eq w => pack 0 w.code 0 0x16
  | .lt w => pack 0 w.code 0 0x17
  | .gt w => pack 0 w.code 0 0x18
  | .clz w => pack 0 w.code 0 0x19
  | .iszero w => pack 0 w.code 0 0x1A
  | .iseven w => pack 0 w.code 0 0x1B
  | .mulk w => pack 0 w.code 0 0x20
  | .sqr w => pack 0 w.code 0 0x21
  | .vxor p => pack 0 0 p.bit 0x30
  | .vand p => pack 0 0 p.bit 0x31
  | .vor p => pack 0 0 p.bit 0x32
  | .vadd p => pack 0 0 p.bit 0x33
  | .vsub p => pack 0 0 p.bit 0x34
  | .vshli p n => pack n 0 p.bit 0x35
  | .vshri p n => pack n 0 p.bit 0x36
  | .vshlv p => pack 0 0 p.bit 0x37
  | .vshrv p => pack 0 0 p.bit 0x38
  | .veq p => pack 0 0 p.bit 0x39
  | .vltm p => pack 0 0 p.bit 0x3A
  | .vgtm p => pack 0 0 p.bit 0x3B
  | .vmin p => pack 0 0 p.bit 0x3C
  | .vmax p => pack 0 0 p.bit 0x3D
  | .vblend p => pack 0 0 p.bit 0x3E
  | .vperm p => pack 0 0 p.bit 0x3F
  | .vsplat p => pack 0 0 p.bit 0x40
  | .vzero p => pack 0 0 p.bit 0x41
  | .tobe w => pack 0 w.code 0 0x50
  | .tole w => pack 0 w.code 0 0x51
  | .frombe w => pack 0 w.code 0 0x52
  | .fromle w => pack 0 w.code 0 0x53
  | .vcapq => pack 0 0 0 0x60

/-! ## Written form (R70) -/

/-- ".N", the width in limbs. -/
def Width.suffix (w : Width) : String := "." ++ toString w.limbs
/-- ".FB" exactly when `FB = 1`. -/
def Path.suffix : Path → String
  | .vector => ""
  | .fallback => ".FB"
/-- "#count", the decimal value of `IMM`. -/
def countSuffix (n : Count) : String := " #" ++ toString n.toNat

/-- What follows the mnemonic in the written form: width, path and count, each exactly where the format has it. -/
def Instr.suffix : Instr → String
  | .adc => ""
  | .sbb => ""
  | .mul64 => ""
  | .sqr64 => ""
  | .add w => w.suffix
  | .sub w => w.suffix
  | .muls w => w.suffix
  | .mulw w => w.suffix
  | .shl w n => w.suffix ++ countSuffix n
  | .shr w n => w.suffix ++ countSuffix n
  | .eq w => w.suffix
  | .lt w => w.suffix
  | .gt w => w.suffix
  | .clz w => w.suffix
  | .iszero w => w.suffix
  | .iseven w => w.suffix
  | .mulk w => w.suffix
  | .sqr w => w.suffix
  | .vxor p => p.suffix
  | .vand p => p.suffix
  | .vor p => p.suffix
  | .vadd p => p.suffix
  | .vsub p => p.suffix
  | .vshli p n => p.suffix ++ countSuffix n
  | .vshri p n => p.suffix ++ countSuffix n
  | .vshlv p => p.suffix
  | .vshrv p => p.suffix
  | .veq p => p.suffix
  | .vltm p => p.suffix
  | .vgtm p => p.suffix
  | .vmin p => p.suffix
  | .vmax p => p.suffix
  | .vblend p => p.suffix
  | .vperm p => p.suffix
  | .vsplat p => p.suffix
  | .vzero p => p.suffix
  | .tobe w => w.suffix
  | .tole w => w.suffix
  | .frombe w => w.suffix
  | .fromle w => w.suffix
  | .vcapq => ""

/-- `MNEMONIC[.N][.FB] [#count]`, the operation part of rule R70's line. -/
def Instr.written (i : Instr) : String := i.mnemonic ++ i.suffix

end Sys2Proof
end

