-- ==== Sys2Proof/Machine/State.lean ====
section
/-! DEFINITION. The state of the model: the instance's constant, the ports of the transaction at hand, and the host
agent's side of the run (`10_state.md` rules R20 to R33, `00_scope.md` rules R14, R15). The block itself keeps nothing
between transactions: no register, no program counter, no flag, no memory (R20, R21, R22, R30, R31). -/

namespace Sys2Proof.Machine

/-- A value on every input port (R24). -/
structure Inputs where
  /-- `CMD`: the command word. -/
  cmd : CmdWord
  /-- `A[0]` to `A[15]`, index 0 least significant (R41). -/
  a : Vector Limb 16
  /-- `B[0]` to `B[15]`. -/
  b : Vector Limb 16
  /-- `S`: the scalar of `MULS` and `VSPLAT`. -/
  s : Limb
  /-- `CIN`, one bit (R25): true is 1. -/
  cin : Bool
  /-- `K`: the lane mask of `VBLEND`. -/
  k : LaneMask
  /-- `BI[0]` to `BI[127]`. -/
  bi : Vector Byte 128
  deriving DecidableEq, Repr

/-- The answer on the output ports (R24). An output the operation's rule does not drive has no value: "an absent option,
not zero" (R27). Of `R` and `BO` an operation drives a run of positions from index 0 up, so the driven values are a
list: `R[i]` is `r[i]?`, `BO[k]` is `bo[k]?`, absent past its end (log entry 6). -/
structure Outputs where
  /-- The driven limbs of `R`, `R[0]` first. -/
  r : List Limb
  /-- `COUT`, one bit: true is 1. -/
  cout : Option Bool
  /-- `FLAG`, one bit: true is 1. -/
  flag : Option Bool
  /-- `KOUT`. -/
  kout : Option LaneMask
  /-- `CNT`, 32 bits. -/
  cnt : Option (BitVec 32)
  /-- The driven bytes of `BO`, `BO[0]` first. -/
  bo : List Byte
  deriving DecidableEq, Repr

/-- Nothing driven: every output unspecified (R27, and R32 before the first transaction). -/
def Outputs.undriven : Outputs := ⟨[], none, none, none, none, []⟩

/-- The host agent (R14): what it will present after the transaction at hand, and the answers it holds (R33). The model's
own field (DESIGN CHOICE, log entry 3); the block never reads it (R23, R31). -/
structure Caller where
  /-- The transactions the host will present next, in order. -/
  todo : List Inputs
  /-- The answers the host has been given, oldest first. -/
  answers : List Outputs
  deriving DecidableEq, Repr

/-- The state: plain data. -/
structure State where
  /-- The instance's constant `VCAP` (R28); no operation writes it. -/
  cfg : Config
  /-- The transaction at hand: what the host presents on the input ports (R23). -/
  inp : Inputs
  /-- The output ports: the answer of the transaction just answered. -/
  out : Outputs
  /-- The host's side. -/
  caller : Caller
  deriving DecidableEq, Repr

/-- The block raises no exception and has no trap mechanism (`60_exceptions.md` rule R270; `93_implementation_defined.md`:
"The block has no `fault` and no `stuck` treatment"), so there is no fault: nobody raises one. -/
inductive Fault where
  deriving DecidableEq, Repr

/-- Why a transaction has no outcome (R271, R272). A refusal is safe: "a true statement about what some real instance
happens to do after a breach cannot be proved; no false statement can" (R272). The two other reasons of R271 belong to a
model that widens `CIN` or `IMM`; here their types exclude them (R25, R65). -/
inductive Refusal where
  /-- Raised by an arm of `exec` whose instruction has no meaning yet (none is left). Safe. -/
  | notModelled (mnemonic : String)
  /-- O4 of R271. Raised by `step` on a reserved command word, and by `execMulk` on a width that no word encodes
  (R64, R68). Safe. -/
  | reservedCommand
  /-- O1 of R271. Raised by every vector command with `FB = 0` on an instance with `VCAP = 0` (R201). Safe. -/
  | vectorWithoutCapability
  deriving DecidableEq, Repr

/-- DESIGN CHOICE (log entry 2, unsafe): every input port at zero, before a host presents anything. -/
def Inputs.zero : Inputs :=
  ⟨0, Vector.replicate 16 0, Vector.replicate 16 0, 0, false, 0, Vector.replicate 128 0⟩

/-- The state after reset of an instance with the given constant: reset changes nothing of it, the outputs are unspecified
(R32, R300), no transaction has been presented. -/
def State.resetWith (c : Config) : State := ⟨c, Inputs.zero, Outputs.undriven, ⟨[], []⟩⟩

/-- The state after reset, for the instance that log entry 1 names. -/
def State.reset : State := State.resetWith Config.atReset

end Sys2Proof.Machine
end

