-- ==== Sys2Proof/Machine/Limbs.lean ====
section
/-! DEFINITION. Limb sequences and the scalar helpers every arithmetic rule is written in: `val`, `limbs_L`
(`00_scope.md` rule R10), `adc`, `sbb`, `mul64` (`40_scalar_primitives.md` rules R100, R102, R104), and the chains built
from them. A sequence is a list, index 0 first and least significant (R41). Arithmetic is on exact numbers and narrowed
where the rule says so (R8, R107). -/

namespace Sys2Proof.Machine

/-- `val(a) = Σ a[i]·2^(64·i)` (R10). -/
def val : List Limb → Nat
  | [] => 0
  | x :: xs => x.toNat + 2 ^ 64 * val xs

/-- `limbs_L(v)[i] = floor(v / 2^(64·i)) mod 2^64` (R10). -/
def limbsOf : Nat → Nat → List Limb
  | 0, _ => []
  | l + 1, v => BitVec.ofNat 64 v :: limbsOf l (v / 2 ^ 64)

/-! ## The scalar helpers -/

/-- `adc(a, b, c)` (R100): with t = a + b + c exact, `(t mod 2^64, t ≥ 2^64 ? 1 : 0)`. -/
def adc (a b : Limb) (c : Bool) : Limb × Bool :=
  (BitVec.ofNat 64 (a.toNat + b.toNat + c.toNat), decide (2 ^ 64 ≤ a.toNat + b.toNat + c.toNat))

/-- `sbb(a, b, c)` (R102): `((a - b - c) mod 2^64, a < b + c ? 1 : 0)`, the remainder non-negative and the comparison on
exact numbers ("`b + c` may be 2^64 and is not wrapped"). -/
def sbb (a b : Limb) (c : Bool) : Limb × Bool :=
  (BitVec.ofInt 64 ((a.toNat : Int) - (b.toNat : Int) - (c.toNat : Int)), decide (a.toNat < b.toNat + c.toNat))

/-- `mul64(a, b)` (R104): the low and the high half of the exact product. -/
def mul64 (a b : Limb) : Limb × Limb :=
  (BitVec.ofNat 64 (a.toNat * b.toNat), BitVec.ofNat 64 (a.toNat * b.toNat / 2 ^ 64))

/-- The pair of `mul64` as a 2-limb Wide Product, low half at index 0 (R41, R104). -/
def mul64Limbs (a b : Limb) : List Limb := [(mul64 a b).1, (mul64 a b).2]

/-! ## Chains -/

/-- The carry chain of rule R120 from carry `c` on, ascending limb index: the sum's limbs and the last carry. -/
def addChain : List Limb → List Limb → Bool → List Limb × Bool
  | a :: as, b :: bs, c =>
    let t := adc a b c
    let u := addChain as bs t.2
    (t.1 :: u.1, u.2)
  | [], _, c => ([], c)
  | _ :: _, [], c => ([], c)

/-- `add_N(a, b)` (R120): the chain starts with carry 0. -/
def addN (a b : List Limb) : List Limb × Bool := addChain a b false

/-- The borrow chain of rule R122 from borrow `c` on. -/
def subChain : List Limb → List Limb → Bool → List Limb × Bool
  | a :: as, b :: bs, c =>
    let t := sbb a b c
    let u := subChain as bs t.2
    (t.1 :: u.1, u.2)
  | [], _, c => ([], c)
  | _ :: _, [], c => ([], c)

/-- `sub_N(a, b)` (R122): the chain starts with borrow 0. -/
def subN (a b : List Limb) : List Limb × Bool := subChain a b false

/-- Add the limbs `d` and a carry into the limbs `p`, from `p`'s first limb upward, the carry rippling on past the end of
`d` as far as it goes: the `adc` chains with "carry propagated forward through subsequent limbs as needed" of rules R132,
R172, R174, R181. A carry out of `p`'s last limb is lost; those rules say that none occurs there. -/
def addInto : List Limb → List Limb → Bool → List Limb
  | [], _, _ => []
  | p :: ps, [], false => p :: ps
  | p :: ps, [], true =>
    let t := adc p 0 true
    t.1 :: addInto ps [] t.2
  | p :: ps, d :: ds, c =>
    let t := adc p d c
    t.1 :: addInto ps ds t.2

/-- `p + val(d)·2^(64·k)`: `d` entering `p` at limb `k` (R132, R172, R174, R181). -/
def addAt (p : List Limb) : Nat → List Limb → List Limb
  | 0, d => addInto p d false
  | k + 1, d =>
    match p with
    | [] => []
    | x :: xs => x :: addAt xs k d

end Sys2Proof.Machine
end

