-- ==== Sys2Proof/Machine/Operands.lean ====
section
/-! DEFINITION. The operand forms of the block: which part of which input port an operation names (`10_state.md` rules
R24, R26, `46_vector_8l.md` rule R200). A meaning reads the ports through these and through `inp.s`, `inp.cin`, `inp.k`
only. -/

namespace Sys2Proof.Machine

/-- Scalar operand `a = IN.A[0]`. -/
def Inputs.scalarA (x : Inputs) : Limb := x.a[0]
/-- Scalar operand `b = IN.B[0]`. -/
def Inputs.scalarB (x : Inputs) : Limb := x.b[0]

/-- Wide Integer operand `a = IN.A[0..N-1]`. -/
def Inputs.wideA (x : Inputs) (w : Width) : List Limb := x.a.toList.take w.limbs
/-- Wide Integer operand `b = IN.B[0..N-1]`. -/
def Inputs.wideB (x : Inputs) (w : Width) : List Limb := x.b.toList.take w.limbs

/-- Lane i of the vector operand `a`, `IN.A[i]` (R200). -/
def Inputs.laneA (x : Inputs) (i : Fin 8) : Limb := x.a[i.val]
/-- Lane i of the vector operand `b`, `IN.B[i]`. -/
def Inputs.laneB (x : Inputs) (i : Fin 8) : Limb := x.b[i.val]

/-- The byte array `IN.BI[0..8N-1]`. -/
def Inputs.bytes (x : Inputs) (w : Width) : List Byte := x.bi.toList.take (8 * w.limbs)

end Sys2Proof.Machine
end

