-- ==== Sys2Proof/Machine/Flags.lean ====
section
/-! DEFINITION. What the one-bit, mask and count outputs are computed from (`10_state.md` rule R22: "no status flags";
every such value is an output of the transaction that computes it). -/

namespace Sys2Proof.Machine

/-- `cmp_N(a, b)` (R150): decided by the most significant limb in which `a` and `b` differ, -1, 0, +1 as `lt`, `eq`, `gt`.
The limbs above the first decide before it is looked at. -/
def cmpN : List Limb → List Limb → Ordering
  | a :: as, b :: bs =>
    match cmpN as bs with
    | .eq => if a.toNat < b.toNat then .lt else if b.toNat < a.toNat then .gt else .eq
    | .lt => .lt
    | .gt => .gt
  | [], _ => .eq
  | _ :: _, [] => .eq

/-- `clz64(v)` (R11): 64 for 0, else 63 minus the index of the highest set bit. -/
def clz64 (v : Limb) : Nat := if v = 0 then 64 else 63 - v.toNat.log2

/-- The scan of rule R154 over the limbs, most significant first: 64 for each zero limb on top, then `clz64` of the first
nonzero one. -/
def clzScan : List Limb → Nat
  | [] => 0
  | x :: xs => if x = 0 then 64 + clzScan xs else clz64 x

/-- `clz_N(a)` (R154). -/
def clzN (a : List Limb) : Nat := clzScan a.reverse

/-- The OR-reduction of rule R156. -/
def orAll : List Limb → Limb
  | [] => 0
  | x :: xs => x ||| orAll xs

/-- A lane mask from one bit per lane: bit i belongs to lane i (R43, R215). -/
def maskOf (f : Fin 8 → Bool) : LaneMask :=
  BitVec.ofNat 8
    ((f 0).toNat + 2 * (f 1).toNat + 4 * (f 2).toNat + 8 * (f 3).toNat + 16 * (f 4).toNat + 32 * (f 5).toNat
      + 64 * (f 6).toNat + 128 * (f 7).toNat)

end Sys2Proof.Machine
end

