-- ==== Sys2Proof/Machine/Ops.lean ====
section
/-! DEFINITION. How a transaction is answered, refused and followed by the next (`10_state.md` rules R23, R27, R33,
`60_exceptions.md` rules R271, R272, R276). The block has no exception to take: where another machine would trap, a breach
of a caller obligation is refused whole ("no partial effect exists because no state exists to be partly changed", R276). -/

namespace Sys2Proof.Machine

/-! ## Answers: exactly the outputs a rule names, every other one absent (R27) -/

/-- Result limbs only. -/
def Outputs.limbs (r : List Limb) : Outputs := { Outputs.undriven with r := r }
/-- Result limbs and the carry or borrow out. -/
def Outputs.limbsCarry (r : List Limb) (c : Bool) : Outputs := { Outputs.undriven with r := r, cout := some c }
/-- A boolean on `FLAG`. -/
def Outputs.bool (b : Bool) : Outputs := { Outputs.undriven with flag := some b }
/-- A lane mask on `KOUT`. -/
def Outputs.mask (m : LaneMask) : Outputs := { Outputs.undriven with kout := some m }
/-- A count on `CNT`, 32 bits. -/
def Outputs.count (n : Nat) : Outputs := { Outputs.undriven with cnt := some (BitVec.ofNat 32 n) }
/-- A byte array on `BO`. -/
def Outputs.bytes (y : List Byte) : Outputs := { Outputs.undriven with bo := y }

/-- `s` with the output ports driven by an answer; everything else as it was (R33). -/
def State.answer (s : State) (o : Outputs) : State := { s with out := o }

/-- The transaction answers `o`. -/
def answered (o : Outputs) (s : State) : Host.Outcome State Fault Refusal := .next (s.answer o)

/-- The transaction has no outcome: no state, no output, a named reason (R272). -/
def refuse (r : Refusal) : Host.Outcome State Fault Refusal := .refused r

/-- The capability precondition of a path on an instance (R201). -/
def Path.definedOn (p : Path) (c : Config) : Bool :=
  match p with
  | .vector => c.vcap
  | .fallback => true

/-- `guard(FB)` (R201), with which "every rule R205 to R224 begins": a vector command with `FB = 0` on an instance with
`VCAP = 0` is refused, every other one answers, the same on both paths (R202). -/
def guarded (p : Path) (o : Outputs) (s : State) : Host.Outcome State Fault Refusal :=
  if Path.definedOn p s.cfg then answered o s else refuse .vectorWithoutCapability

/-! ## The host's move -/

/-- The host presents a transaction. -/
def State.present (s : State) (t : Inputs) : State := { s with inp := t }

/-- Between two transactions the host takes the answer (R33) and presents its next transaction. With none left it leaves
the input ports as they are, which presents the same transaction again, as it "may" at any time (R45).
DESIGN CHOICE (log entry 3). -/
def State.handOver (s : State) : State :=
  { s with
    inp := s.caller.todo.headD s.inp
    caller := { todo := s.caller.todo.tail, answers := s.caller.answers ++ [s.out] } }

end Sys2Proof.Machine
end

