-- ==== Sys2Proof/Machine/ByteInterop.lean ====
section
/-! DEFINITION. `TOBE`, `TOLE`, `FROMBE`, `FROMLE` (`47_byte_interop.md`): the byte order applies to the whole 8N-byte array
as one number (`20_memory.md` rule R42; the reading of the two orders is the spec's own: log entry 9, unsafe). -/

namespace Sys2Proof.Machine

/-- The little-endian array of `n` bytes of `v` (R251): byte k is `floor(v / 2^(8·k)) mod 256`. -/
def bytesLE (n v : Nat) : List Byte := (List.range n).map fun k => BitVec.ofNat 8 (v / 2 ^ (8 * k))

/-- The big-endian array of `n` bytes of `v` (R250): byte k is `floor(v / 2^(8·(n-1-k))) mod 256`. -/
def bytesBE (n v : Nat) : List Byte := (List.range n).map fun k => BitVec.ofNat 8 (v / 2 ^ (8 * (n - 1 - k)))

/-- `Σ y[k]·2^(8·k)` (R253). -/
def sumLE : List Byte → Nat
  | [] => 0
  | y :: ys => y.toNat + 256 * sumLE ys

/-- `Σ y[k]·2^(8·(n-1-k))` over an array of `n` bytes (R252). -/
def sumBE : List Byte → Nat
  | [] => 0
  | y :: ys => y.toNat * 2 ^ (8 * ys.length) + sumBE ys

/-- `TOBE.N` (R250). -/
def execTobe (w : Width) (s : State) : Host.Outcome State Fault Refusal :=
  answered (.bytes (bytesBE (8 * w.limbs) (val (s.inp.wideA w)))) s

/-- `TOLE.N` (R251). -/
def execTole (w : Width) (s : State) : Host.Outcome State Fault Refusal :=
  answered (.bytes (bytesLE (8 * w.limbs) (val (s.inp.wideA w)))) s

/-- `FROMBE.N` (R252). -/
def execFrombe (w : Width) (s : State) : Host.Outcome State Fault Refusal :=
  answered (.limbs (limbsOf w.limbs (sumBE (s.inp.bytes w)))) s

/-- `FROMLE.N` (R253). -/
def execFromle (w : Width) (s : State) : Host.Outcome State Fault Refusal :=
  answered (.limbs (limbsOf w.limbs (sumLE (s.inp.bytes w)))) s

end Sys2Proof.Machine
end

