-- ==== Sys2Proof/Machine/Capability.lean ====
section
/-! DEFINITION. The capability query `VCAPQ` (`48_capability_query.md`), the block's only system operation. -/

namespace Sys2Proof.Machine

/-- `VCAPQ` (R260): `FLAG` is `VCAP`. No precondition, no side effect (R261). -/
def execVcapq (s : State) : Host.Outcome State Fault Refusal := answered (.bool s.cfg.vcap) s

end Sys2Proof.Machine
end

