-- ==== Sys2Proof/Machine/FixedAddSub.lean ====
section
/-! DEFINITION. `ADD` and `SUB` (`41_fixed_addsub.md`). -/

namespace Sys2Proof.Machine

/-- `ADD.N` (R120): no carry-in, the final carry on `COUT`. -/
def execAdd (w : Width) (s : State) : Host.Outcome State Fault Refusal :=
  let t := addN (s.inp.wideA w) (s.inp.wideB w)
  answered (.limbsCarry t.1 t.2) s

/-- `SUB.N` (R122): `a` minus `b`, the final borrow on `COUT`. -/
def execSub (w : Width) (s : State) : Host.Outcome State Fault Refusal :=
  let t := subN (s.inp.wideA w) (s.inp.wideB w)
  answered (.limbsCarry t.1 t.2) s

end Sys2Proof.Machine
end

