-- ==== Sys2Proof/Machine/FixedCompare.lean ====
section
/-! DEFINITION. `EQ`, `LT`, `GT`, `CLZ`, `ISZERO`, `ISEVEN` (`44_fixed_compare.md`). All comparisons are unsigned. Stopping
early is not observable (R158), so it is not represented. -/

namespace Sys2Proof.Machine

/-- `EQ.N` (R150). -/
def execEq (w : Width) (s : State) : Host.Outcome State Fault Refusal :=
  answered (.bool (decide (cmpN (s.inp.wideA w) (s.inp.wideB w) = .eq))) s

/-- `LT.N` (R151). -/
def execLt (w : Width) (s : State) : Host.Outcome State Fault Refusal :=
  answered (.bool (decide (cmpN (s.inp.wideA w) (s.inp.wideB w) = .lt))) s

/-- `GT.N` (R152). -/
def execGt (w : Width) (s : State) : Host.Outcome State Fault Refusal :=
  answered (.bool (decide (cmpN (s.inp.wideA w) (s.inp.wideB w) = .gt))) s

/-- `CLZ.N` (R154). -/
def execClz (w : Width) (s : State) : Host.Outcome State Fault Refusal :=
  answered (.count (clzN (s.inp.wideA w))) s

/-- `ISZERO.N` (R156). -/
def execIszero (w : Width) (s : State) : Host.Outcome State Fault Refusal :=
  answered (.bool (decide (orAll (s.inp.wideA w) = 0))) s

/-- `ISEVEN.N` (R157): "only `A[0]` is looked at", so the width does not matter. -/
def execIseven (_w : Width) (s : State) : Host.Outcome State Fault Refusal :=
  answered (.bool (decide (s.inp.scalarA &&& 1 = 0))) s

end Sys2Proof.Machine
end

