-- ==== Sys2Proof/Machine/FixedMultiply.lean ====
section
/-! DEFINITION. `MULS` and `MULW` (`42_fixed_multiply.md`). -/

namespace Sys2Proof.Machine

/-- The limbs of `muls_N(a, s)` (R130) from a running carry on. The carry between limbs is a whole limb
(`90_conflicts.md` C8); the last one is limb N, "never silently dropped". -/
def mulsChain (s : Limb) : List Limb → Limb → List Limb
  | [], carry => [carry]
  | a :: as, carry =>
    let p := mul64 a s
    let t := adc p.1 carry false
    t.1 :: mulsChain s as (BitVec.ofNat 64 (p.2.toNat + t.2.toNat))

/-- `muls_N(a, s)` (R130): N+1 limbs. -/
def mulsN (a : List Limb) (s : Limb) : List Limb := mulsChain s a 0

/-- The inner loop of rule R132: for each `b[j]` from index `j` on, accumulate `mul64(ai, b[j])` into the limbs `i+j` and
`i+j+1` of `p`, the carry propagated forward as needed. -/
def mulwRow (ai : Limb) (i : Nat) : Nat → List Limb → List Limb → List Limb
  | _, [], p => p
  | j, b :: bs, p => mulwRow ai i (j + 1) bs (addAt p (i + j) (mul64Limbs ai b))

/-- The outer loop of rule R132, from index `i` on. -/
def mulwRows (b : List Limb) : Nat → List Limb → List Limb → List Limb
  | _, [], p => p
  | i, ai :: as, p => mulwRows b (i + 1) as (mulwRow ai i 0 b p)

/-- `mulw_N(a, b)` (R132): 2N limbs, all 0 at the start. -/
def mulwN (a b : List Limb) : List Limb := mulwRows b 0 a (List.replicate (a.length + b.length) 0)

/-- `MULS.N` (R130). -/
def execMuls (w : Width) (s : State) : Host.Outcome State Fault Refusal :=
  answered (.limbs (mulsN (s.inp.wideA w) s.inp.s)) s

/-- `MULW.N` (R132). -/
def execMulw (w : Width) (s : State) : Host.Outcome State Fault Refusal :=
  answered (.limbs (mulwN (s.inp.wideA w) (s.inp.wideB w))) s

end Sys2Proof.Machine
end

