-- ==== Sys2Proof/Machine/FixedShift.lean ====
section
/-! DEFINITION. `SHL` and `SHR` (`43_fixed_shift.md`). -/

namespace Sys2Proof.Machine

/-- The limbs of rule R140 for `bits` from 1 to 63, given the next lower limb (0 below limb 0):
`(a[i] << bits) | (a[i-1] >> (64 - bits))`. -/
def shlChain (bits : Nat) : Limb → List Limb → List Limb
  | _, [] => []
  | lower, a :: as => ((a <<< bits) ||| (lower >>> (64 - bits))) :: shlChain bits a as

/-- `shl_N(a, bits)` (R140): "bits = 0 is the identity". -/
def shlN (a : List Limb) (bits : Nat) : List Limb := if bits = 0 then a else shlChain bits 0 a

/-- The limbs of rule R142 for `bits` from 1 to 63: `(a[i] >> bits) | (a[i+1] << (64 - bits))`, 0 above limb N-1. -/
def shrChain (bits : Nat) : List Limb → List Limb
  | [] => []
  | a :: as => ((a >>> bits) ||| (as.headD 0 <<< (64 - bits))) :: shrChain bits as

/-- `shr_N(a, bits)` (R142). -/
def shrN (a : List Limb) (bits : Nat) : List Limb := if bits = 0 then a else shrChain bits a

/-- `SHL.N #bits` (R140): the bits pushed out at the top are discarded, `COUT` is not driven. -/
def execShl (w : Width) (bits : Count) (s : State) : Host.Outcome State Fault Refusal :=
  answered (.limbs (shlN (s.inp.wideA w) bits.toNat)) s

/-- `SHR.N #bits` (R142): logical, the low bits are discarded. -/
def execShr (w : Width) (bits : Count) (s : State) : Host.Outcome State Fault Refusal :=
  answered (.limbs (shrN (s.inp.wideA w) bits.toNat)) s

end Sys2Proof.Machine
end

