-- ==== Sys2Proof/Machine/Karatsuba.lean ====
section
/-! DEFINITION. `MULK` and `SQR` (`45_karatsuba.md`), with the datapaths the spec describes: the Karatsuba recursion with the
carry adjust (R172, R174, R176) and the symmetric squarer (R181). -/

namespace Sys2Proof.Machine

/-- One level of the Karatsuba datapath over halves of `h` limbs, `mul` the multiplier of one half by one half, into `2h`
limbs: R172 with `h = 1`, R174 with `h = 2` ("the same combine-and-carry-adjust pattern at a larger scale"). -/
def karatsuba (h : Nat) (mul : List Limb → List Limb → List Limb) (a b : List Limb) : List Limb :=
  let z0 := mul (a.take h) (b.take h)
  let z2 := mul (a.drop h) (b.drop h)
  let sa := addN (a.take h) (a.drop h)
  let sb := addN (b.take h) (b.drop h)
  -- the truncated middle product, one limb wider
  let m := mul sa.1 sb.1 ++ [0]
  -- the carry adjust: "must add back the 'missing' addend when either sum overflowed"
  let m := if sa.2 then addAt m h sb.1 else m
  let m := if sb.2 then addAt m h sa.1 else m
  let m := if sa.2 && sb.2 then addAt m (2 * h) [1] else m
  let z1 := (subN (subN m (z0 ++ [0])).1 (z2 ++ [0])).1
  addAt (z0 ++ z2) h z1

/-- The base of the recursion: `mul64` of one limb by one limb. -/
def mul1 (a b : List Limb) : List Limb := mul64Limbs (a.headD 0) (b.headD 0)

/-- `k2(a, b)` (R172): three `mul64`. -/
def k2 (a b : List Limb) : List Limb := karatsuba 1 mul1 a b

/-- `k4(a, b)` (R174): three `k2`. -/
def k4 (a b : List Limb) : List Limb := karatsuba 2 k2 a b

/-- The doubled cross term of rule R181, `[d0, d1, c1] = 2·x·y`, the carry of `v + v` kept. -/
def doubledProduct (x y : Limb) : List Limb :=
  let p := mul64 x y
  let d0 := adc p.1 p.1 false
  let d1 := adc p.2 p.2 d0.2
  [d0.1, d1.1, BitVec.ofNat 64 d1.2.toNat]

/-- The inner loop of rule R181: for each `a[j]` from index `j` on, the doubled term `a[i]·a[j]` entering at limb `i+j`. -/
def sqrRow (ai : Limb) (i : Nat) : Nat → List Limb → List Limb → List Limb
  | _, [], p => p
  | j, aj :: as, p => sqrRow ai i (j + 1) as (addAt p (i + j) (doubledProduct ai aj))

/-- The outer loop of rule R181, from index `i` on: the diagonal term once, entering at limb `2i`, then the terms above it. -/
def sqrRows : Nat → List Limb → List Limb → List Limb
  | _, [], p => p
  | i, ai :: as, p => sqrRows (i + 1) as (sqrRow ai i (i + 1) as (addAt p (2 * i) (mul64Limbs ai ai)))

/-- `sqr_N(a)` (R181): 2N limbs, all 0 at the start. -/
def sqrN (a : List Limb) : List Limb := sqrRows 0 a (List.replicate (2 * a.length) 0)

/-- `MULK.N` (R170) at N = 2 and N = 4. No word encodes another width (R64, R68: reserved), and such a term is refused
(DESIGN CHOICE, log entry 7). -/
def execMulk (w : Width) (s : State) : Host.Outcome State Fault Refusal :=
  match w with
  | .w2 => answered (.limbs (k2 (s.inp.wideA .w2) (s.inp.wideB .w2))) s
  | .w4 => answered (.limbs (k4 (s.inp.wideA .w4) (s.inp.wideB .w4))) s
  | .w8 => refuse .reservedCommand
  | .w16 => refuse .reservedCommand

/-- `SQR.N` (R180). -/
def execSqr (w : Width) (s : State) : Host.Outcome State Fault Refusal :=
  answered (.limbs (sqrN (s.inp.wideA w))) s

end Sys2Proof.Machine
end

