-- ==== Sys2Proof/Machine/Scalar.lean ====
section
/-! DEFINITION. The scalar primitives `ADC`, `SBB`, `MUL64`, `SQR64` (`40_scalar_primitives.md`). -/

namespace Sys2Proof.Machine

/-- `ADC` (R100). -/
def execAdc (s : State) : Host.Outcome State Fault Refusal :=
  let t := adc s.inp.scalarA s.inp.scalarB s.inp.cin
  answered (.limbsCarry [t.1] t.2) s

/-- `SBB` (R102): `CIN` is the borrow-in, `COUT` the borrow-out. -/
def execSbb (s : State) : Host.Outcome State Fault Refusal :=
  let t := sbb s.inp.scalarA s.inp.scalarB s.inp.cin
  answered (.limbsCarry [t.1] t.2) s

/-- `MUL64` (R104): low half on `R[0]`, high half on `R[1]`. -/
def execMul64 (s : State) : Host.Outcome State Fault Refusal :=
  answered (.limbs (mul64Limbs s.inp.scalarA s.inp.scalarB)) s

/-- `SQR64` (R106): `mul64(a, a)`; `B` is ignored. -/
def execSqr64 (s : State) : Host.Outcome State Fault Refusal :=
  answered (.limbs (mul64Limbs s.inp.scalarA s.inp.scalarA)) s

end Sys2Proof.Machine
end

