-- ==== Sys2Proof/Machine/VectorKernel.lean ====
section
/-! DEFINITION. The 8-lane vector kernel (`46_vector_8l.md`). Every meaning is guarded by the capability precondition (R201)
and gives the same answer on both paths (R202). Lanes are unsigned and independent (R203, R204). Where the source leaves an
operation open the numbered rule is followed, which is the spec's own decision (log entry 8, unsafe); one meaning stands for
both datapaths (log entry 11). -/

namespace Sys2Proof.Machine

/-- A vector result, `OUT.R[i]` for i in 0..7. -/
def lanes (f : Fin 8 → Limb) : Outputs := .limbs [f 0, f 1, f 2, f 3, f 4, f 5, f 6, f 7]

/-- A left shift of one lane by a count of any size (R210): `(v·2^c) mod 2^64`, 0 for a count of 64 or more. -/
def laneShl (v : Limb) (c : Nat) : Limb := if 64 ≤ c then 0 else v <<< c

/-- A logical right shift of one lane (R204, R210): `floor(v / 2^c)`, 0 for a count of 64 or more. -/
def laneShr (v : Limb) (c : Nat) : Limb := if 64 ≤ c then 0 else v >>> c

/-- The input lane an index lane names (R222): its low 3 bits. -/
def laneIndex (v : Limb) : Fin 8 := ⟨v.toNat % 8, Nat.mod_lt _ (by decide)⟩

/-- `VXOR` (R205). -/
def execVxor (p : Path) (s : State) : Host.Outcome State Fault Refusal :=
  guarded p (lanes fun i => s.inp.laneA i ^^^ s.inp.laneB i) s

/-- `VAND` (R206). -/
def execVand (p : Path) (s : State) : Host.Outcome State Fault Refusal :=
  guarded p (lanes fun i => s.inp.laneA i &&& s.inp.laneB i) s

/-- `VOR` (R207). -/
def execVor (p : Path) (s : State) : Host.Outcome State Fault Refusal :=
  guarded p (lanes fun i => s.inp.laneA i ||| s.inp.laneB i) s

/-- `VADD` (R208): each lane wraps modulo 2^64, no carry between lanes. -/
def execVadd (p : Path) (s : State) : Host.Outcome State Fault Refusal :=
  guarded p (lanes fun i => s.inp.laneA i + s.inp.laneB i) s

/-- `VSUB` (R209): `a` minus `b`, each lane wraps. -/
def execVsub (p : Path) (s : State) : Host.Outcome State Fault Refusal :=
  guarded p (lanes fun i => s.inp.laneA i - s.inp.laneB i) s

/-- `VSHLI #count` (R211). -/
def execVshli (p : Path) (count : Count) (s : State) : Host.Outcome State Fault Refusal :=
  guarded p (lanes fun i => laneShl (s.inp.laneA i) count.toNat) s

/-- `VSHRI #count` (R212). -/
def execVshri (p : Path) (count : Count) (s : State) : Host.Outcome State Fault Refusal :=
  guarded p (lanes fun i => laneShr (s.inp.laneA i) count.toNat) s

/-- `VSHLV` (R213): the count of lane i is the whole 64-bit lane `B[i]`. -/
def execVshlv (p : Path) (s : State) : Host.Outcome State Fault Refusal :=
  guarded p (lanes fun i => laneShl (s.inp.laneA i) (s.inp.laneB i).toNat) s

/-- `VSHRV` (R214). -/
def execVshrv (p : Path) (s : State) : Host.Outcome State Fault Refusal :=
  guarded p (lanes fun i => laneShr (s.inp.laneA i) (s.inp.laneB i).toNat) s

/-- `VEQ` (R216): one boolean, true only if all 8 lanes match. -/
def execVeq (p : Path) (s : State) : Host.Outcome State Fault Refusal :=
  guarded p (.bool (decide (∀ i : Fin 8, s.inp.laneA i = s.inp.laneB i))) s

/-- `VLTM` (R217): unsigned, bit i for lane i. -/
def execVltm (p : Path) (s : State) : Host.Outcome State Fault Refusal :=
  guarded p (.mask (maskOf fun i => decide ((s.inp.laneA i).toNat < (s.inp.laneB i).toNat))) s

/-- `VGTM` (R218). -/
def execVgtm (p : Path) (s : State) : Host.Outcome State Fault Refusal :=
  guarded p (.mask (maskOf fun i => decide ((s.inp.laneB i).toNat < (s.inp.laneA i).toNat))) s

/-- `VMIN` (R219): unsigned. -/
def execVmin (p : Path) (s : State) : Host.Outcome State Fault Refusal :=
  guarded p
    (lanes fun i => if (s.inp.laneA i).toNat ≤ (s.inp.laneB i).toNat then s.inp.laneA i else s.inp.laneB i) s

/-- `VMAX` (R220): unsigned. -/
def execVmax (p : Path) (s : State) : Host.Outcome State Fault Refusal :=
  guarded p
    (lanes fun i => if (s.inp.laneA i).toNat ≤ (s.inp.laneB i).toNat then s.inp.laneB i else s.inp.laneA i) s

/-- `VBLEND` (R221): mask bit 0 keeps `A[i]`, mask bit 1 takes `B[i]`. -/
def execVblend (p : Path) (s : State) : Host.Outcome State Fault Refusal :=
  guarded p (lanes fun i => if s.inp.k.getLsbD i.val then s.inp.laneB i else s.inp.laneA i) s

/-- `VPERM` (R222): gather, `R[i] = A[B[i] mod 8]`, repeats allowed. -/
def execVperm (p : Path) (s : State) : Host.Outcome State Fault Refusal :=
  guarded p (lanes fun i => s.inp.laneA (laneIndex (s.inp.laneB i))) s

/-- `VSPLAT` (R223): `S` in every lane; `A` and `B` are ignored. -/
def execVsplat (p : Path) (s : State) : Host.Outcome State Fault Refusal :=
  guarded p (lanes fun _ => s.inp.s) s

/-- `VZERO` (R224): every lane 0; every data input is ignored. -/
def execVzero (p : Path) (s : State) : Host.Outcome State Fault Refusal :=
  guarded p (lanes fun _ => 0) s

end Sys2Proof.Machine
end

