-- ==== Sys2Proof/Machine/Dispatch.lean ====
section
/-! DEFINITION. The one dispatch from a command to its meaning. -/

namespace Sys2Proof.Machine

def exec (i : Instr) (s : State) : Host.Outcome State Fault Refusal :=
  match i with
  | .adc => Sys2Proof.Machine.execAdc s
  | .sbb => Sys2Proof.Machine.execSbb s
  | .mul64 => Sys2Proof.Machine.execMul64 s
  | .sqr64 => Sys2Proof.Machine.execSqr64 s
  | .add w => Sys2Proof.Machine.execAdd w s
  | .sub w => Sys2Proof.Machine.execSub w s
  | .muls w => Sys2Proof.Machine.execMuls w s
  | .mulw w => Sys2Proof.Machine.execMulw w s
  | .shl w bits => Sys2Proof.Machine.execShl w bits s
  | .shr w bits => Sys2Proof.Machine.execShr w bits s
  | .eq w => Sys2Proof.Machine.execEq w s
  | .lt w => Sys2Proof.Machine.execLt w s
  | .gt w => Sys2Proof.Machine.execGt w s
  | .clz w => Sys2Proof.Machine.execClz w s
  | .iszero w => Sys2Proof.Machine.execIszero w s
  | .iseven w => Sys2Proof.Machine.execIseven w s
  | .mulk w => Sys2Proof.Machine.execMulk w s
  | .sqr w => Sys2Proof.Machine.execSqr w s
  | .vxor p => Sys2Proof.Machine.execVxor p s
  | .vand p => Sys2Proof.Machine.execVand p s
  | .vor p => Sys2Proof.Machine.execVor p s
  | .vadd p => Sys2Proof.Machine.execVadd p s
  | .vsub p => Sys2Proof.Machine.execVsub p s
  | .vshli p count => Sys2Proof.Machine.execVshli p count s
  | .vshri p count => Sys2Proof.Machine.execVshri p count s
  | .vshlv p => Sys2Proof.Machine.execVshlv p s
  | .vshrv p => Sys2Proof.Machine.execVshrv p s
  | .veq p => Sys2Proof.Machine.execVeq p s
  | .vltm p => Sys2Proof.Machine.execVltm p s
  | .vgtm p => Sys2Proof.Machine.execVgtm p s
  | .vmin p => Sys2Proof.Machine.execVmin p s
  | .vmax p => Sys2Proof.Machine.execVmax p s
  | .vblend p => Sys2Proof.Machine.execVblend p s
  | .vperm p => Sys2Proof.Machine.execVperm p s
  | .vsplat p => Sys2Proof.Machine.execVsplat p s
  | .vzero p => Sys2Proof.Machine.execVzero p s
  | .tobe w => Sys2Proof.Machine.execTobe w s
  | .tole w => Sys2Proof.Machine.execTole w s
  | .frombe w => Sys2Proof.Machine.execFrombe w s
  | .fromle w => Sys2Proof.Machine.execFromle w s
  | .vcapq => Sys2Proof.Machine.execVcapq s

end Sys2Proof.Machine
end

