-- ==== Sys2Proof/Machine/Step.lean ====
section
/-! DEFINITION. One step: one whole transaction (`00_scope.md` rule R14). -/

namespace Sys2Proof.Machine

/-- Decode first; a reserved word is refused and nothing else is looked at (R274). A command answers, and the host takes
the answer and presents its next transaction; or it is refused whole (R272, R276). -/
def step (s : State) : Host.Outcome State Fault Refusal :=
  match decode s.inp.cmd with
  | .error _ => refuse .reservedCommand
  | .ok i =>
    match exec i s with
    | .next t => .next t.handOver
    | .fault f => .fault f
    | .refused r => .refused r

/-- `s` with the word presented on `CMD`, so that the next step runs exactly it: the block fetches nothing, the host
presents each command word (R21). DESIGN CHOICE (log entry 4). -/
def State.withFetchWord (s : State) (nbits w : Nat) : State :=
  { s with inp := { s.inp with cmd := tableCmd nbits w } }

end Sys2Proof.Machine
end

