-- ==== Sys2Proof/Safety.lean ====
section
/-! DEFINITION. The terms claims are stated in: which outputs an operation names, which inputs it names, which
transactions have an outcome, the invariant of the state, and the answer of one transaction taken alone. -/

namespace Sys2Proof

/-- `bitlen(v)` (`44_fixed_compare.md` rule R155): 0 for 0, else the index of the highest set bit plus one. -/
def bitlen (v : Nat) : Nat := if v = 0 then 0 else v.log2 + 1

/-- Which output ports carry a value, and how many limbs and bytes (R24, R27). -/
structure Driven where
  rLimbs  : Nat
  cout    : Bool
  flag    : Bool
  kout    : Bool
  cnt     : Bool
  boBytes : Nat
  deriving DecidableEq, Repr

/-- `L` result limbs, nothing else. -/
def Driven.limbs (l : Nat) : Driven := ⟨l, false, false, false, false, 0⟩
/-- `L` result limbs and `COUT`. -/
def Driven.limbsCarry (l : Nat) : Driven := ⟨l, true, false, false, false, 0⟩
/-- `FLAG`. -/
def Driven.bool : Driven := ⟨0, false, true, false, false, 0⟩
/-- `KOUT`. -/
def Driven.mask : Driven := ⟨0, false, false, true, false, 0⟩
/-- `CNT`. -/
def Driven.count : Driven := ⟨0, false, false, false, true, 0⟩
/-- `n` bytes of `BO`. -/
def Driven.bytes (n : Nat) : Driven := ⟨0, false, false, false, false, n⟩

/-- The outputs each operation's rule names (R100 to R260). -/
def Instr.names : Instr → Driven
  | .adc => .limbsCarry 1
  | .sbb => .limbsCarry 1
  | .mul64 => .limbs 2
  | .sqr64 => .limbs 2
  | .add w => .limbsCarry w.limbs
  | .sub w => .limbsCarry w.limbs
  | .muls w => .limbs (w.limbs + 1)
  | .mulw w => .limbs (2 * w.limbs)
  | .shl w _ => .limbs w.limbs
  | .shr w _ => .limbs w.limbs
  | .eq _ => .bool
  | .lt _ => .bool
  | .gt _ => .bool
  | .clz _ => .count
  | .iszero _ => .bool
  | .iseven _ => .bool
  | .mulk w => .limbs (2 * w.limbs)
  | .sqr w => .limbs (2 * w.limbs)
  | .vxor _ => .limbs 8
  | .vand _ => .limbs 8
  | .vor _ => .limbs 8
  | .vadd _ => .limbs 8
  | .vsub _ => .limbs 8
  | .vshli _ _ => .limbs 8
  | .vshri _ _ => .limbs 8
  | .vshlv _ => .limbs 8
  | .vshrv _ => .limbs 8
  | .veq _ => .bool
  | .vltm _ => .mask
  | .vgtm _ => .mask
  | .vmin _ => .limbs 8
  | .vmax _ => .limbs 8
  | .vblend _ => .limbs 8
  | .vperm _ => .limbs 8
  | .vsplat _ => .limbs 8
  | .vzero _ => .limbs 8
  | .tobe w => .bytes (8 * w.limbs)
  | .tole w => .bytes (8 * w.limbs)
  | .frombe w => .limbs w.limbs
  | .fromle w => .limbs w.limbs
  | .vcapq => .bool

/-- The path of a vector command; none for the other families (R63). -/
def Instr.path : Instr → Option Path
  | .adc => none
  | .sbb => none
  | .mul64 => none
  | .sqr64 => none
  | .add _ => none
  | .sub _ => none
  | .muls _ => none
  | .mulw _ => none
  | .shl _ _ => none
  | .shr _ _ => none
  | .eq _ => none
  | .lt _ => none
  | .gt _ => none
  | .clz _ => none
  | .iszero _ => none
  | .iseven _ => none
  | .mulk _ => none
  | .sqr _ => none
  | .vxor p => some p
  | .vand p => some p
  | .vor p => some p
  | .vadd p => some p
  | .vsub p => some p
  | .vshli p _ => some p
  | .vshri p _ => some p
  | .vshlv p => some p
  | .vshrv p => some p
  | .veq p => some p
  | .vltm p => some p
  | .vgtm p => some p
  | .vmin p => some p
  | .vmax p => some p
  | .vblend p => some p
  | .vperm p => some p
  | .vsplat p => some p
  | .vzero p => some p
  | .tobe _ => none
  | .tole _ => none
  | .frombe _ => none
  | .fromle _ => none
  | .vcapq => none

/-- The same vector command on path `p`; another command is left as it is. -/
def Instr.onPath (p : Path) : Instr → Instr
  | .adc => .adc
  | .sbb => .sbb
  | .mul64 => .mul64
  | .sqr64 => .sqr64
  | .add w => .add w
  | .sub w => .sub w
  | .muls w => .muls w
  | .mulw w => .mulw w
  | .shl w n => .shl w n
  | .shr w n => .shr w n
  | .eq w => .eq w
  | .lt w => .lt w
  | .gt w => .gt w
  | .clz w => .clz w
  | .iszero w => .iszero w
  | .iseven w => .iseven w
  | .mulk w => .mulk w
  | .sqr w => .sqr w
  | .vxor _ => .vxor p
  | .vand _ => .vand p
  | .vor _ => .vor p
  | .vadd _ => .vadd p
  | .vsub _ => .vsub p
  | .vshli _ n => .vshli p n
  | .vshri _ n => .vshri p n
  | .vshlv _ => .vshlv p
  | .vshrv _ => .vshrv p
  | .veq _ => .veq p
  | .vltm _ => .vltm p
  | .vgtm _ => .vgtm p
  | .vmin _ => .vmin p
  | .vmax _ => .vmax p
  | .vblend _ => .vblend p
  | .vperm _ => .vperm p
  | .vsplat _ => .vsplat p
  | .vzero _ => .vzero p
  | .tobe w => .tobe w
  | .tole w => .tole w
  | .frombe w => .frombe w
  | .fromle w => .fromle w
  | .vcapq => .vcapq

/-- The vector commands whose output lane i depends on lane i of the inputs only (`46_vector_8l.md` rule R203: all but
`VEQ`, `VPERM`, `VSPLAT`, `VZERO`). -/
def Instr.laneWise : Instr → Bool
  | .adc => false
  | .sbb => false
  | .mul64 => false
  | .sqr64 => false
  | .add _ => false
  | .sub _ => false
  | .muls _ => false
  | .mulw _ => false
  | .shl _ _ => false
  | .shr _ _ => false
  | .eq _ => false
  | .lt _ => false
  | .gt _ => false
  | .clz _ => false
  | .iszero _ => false
  | .iseven _ => false
  | .mulk _ => false
  | .sqr _ => false
  | .vxor _ => true
  | .vand _ => true
  | .vor _ => true
  | .vadd _ => true
  | .vsub _ => true
  | .vshli _ _ => true
  | .vshri _ _ => true
  | .vshlv _ => true
  | .vshrv _ => true
  | .veq _ => false
  | .vltm _ => true
  | .vgtm _ => true
  | .vmin _ => true
  | .vmax _ => true
  | .vblend _ => true
  | .vperm _ => false
  | .vsplat _ => false
  | .vzero _ => false
  | .tobe _ => false
  | .tole _ => false
  | .frombe _ => false
  | .fromle _ => false
  | .vcapq => false

namespace Machine

/-- What an answer drives. -/
def Outputs.driven (o : Outputs) : Driven :=
  ⟨o.r.length, o.cout.isSome, o.flag.isSome, o.kout.isSome, o.cnt.isSome, o.bo.length⟩

/-! ## Which inputs an operation names (R26) -/

/-- The scalar operands agree. -/
def Inputs.sameScalars (x y : Inputs) : Prop := x.scalarA = y.scalarA ∧ x.scalarB = y.scalarB
/-- The Wide Integer operands of width `w` agree. -/
def Inputs.sameWides (w : Width) (x y : Inputs) : Prop := x.wideA w = y.wideA w ∧ x.wideB w = y.wideB w
/-- The lanes of `a` agree. -/
def Inputs.sameLanesA (x y : Inputs) : Prop := ∀ i, x.laneA i = y.laneA i
/-- The lanes of `a` and of `b` agree. -/
def Inputs.sameLanes (x y : Inputs) : Prop := (∀ i, x.laneA i = y.laneA i) ∧ ∀ i, x.laneB i = y.laneB i

/-- `x` and `y` agree on every input the rule of `i` names. -/
def Inputs.agreeOn (i : Instr) (x y : Inputs) : Prop :=
  match i with
  | .adc => x.sameScalars y ∧ x.cin = y.cin
  | .sbb => x.sameScalars y ∧ x.cin = y.cin
  | .mul64 => x.sameScalars y
  | .sqr64 => x.scalarA = y.scalarA
  | .add w => x.sameWides w y
  | .sub w => x.sameWides w y
  | .muls w => x.wideA w = y.wideA w ∧ x.s = y.s
  | .mulw w => x.sameWides w y
  | .shl w _ => x.wideA w = y.wideA w
  | .shr w _ => x.wideA w = y.wideA w
  | .eq w => x.sameWides w y
  | .lt w => x.sameWides w y
  | .gt w => x.sameWides w y
  | .clz w => x.wideA w = y.wideA w
  | .iszero w => x.wideA w = y.wideA w
  | .iseven _ => x.scalarA = y.scalarA
  | .mulk w => x.sameWides w y
  | .sqr w => x.wideA w = y.wideA w
  | .vxor _ => x.sameLanes y
  | .vand _ => x.sameLanes y
  | .vor _ => x.sameLanes y
  | .vadd _ => x.sameLanes y
  | .vsub _ => x.sameLanes y
  | .vshli _ _ => x.sameLanesA y
  | .vshri _ _ => x.sameLanesA y
  | .vshlv _ => x.sameLanes y
  | .vshrv _ => x.sameLanes y
  | .veq _ => x.sameLanes y
  | .vltm _ => x.sameLanes y
  | .vgtm _ => x.sameLanes y
  | .vmin _ => x.sameLanes y
  | .vmax _ => x.sameLanes y
  | .vblend _ => x.sameLanes y ∧ x.k = y.k
  | .vperm _ => x.sameLanes y
  | .vsplat _ => x.s = y.s
  | .vzero _ => True
  | .tobe w => x.wideA w = y.wideA w
  | .tole w => x.wideA w = y.wideA w
  | .frombe w => x.bytes w = y.bytes w
  | .fromle w => x.bytes w = y.bytes w
  | .vcapq => True

/-! ## Which transactions have an outcome (R271) -/

/-- The command can be answered on the instance: it is not a vector command on the vector path without the capability. -/
def definedOn (i : Instr) (c : Config) : Bool :=
  match i.path with
  | some p => Path.definedOn p c
  | none => true

/-- The caller obligations O1 and O4 of rule R271 are met: the word is a command, and it can be answered on the instance. -/
def Inputs.allowed (c : Config) (x : Inputs) : Bool :=
  match decode x.cmd with
  | .ok i => definedOn i c
  | .error _ => false

/-- The state is `s` but for what a transaction may change: the constant, the inputs and the host's side are the same
(R28, R33). -/
def State.sameButOut (s t : State) : Prop := t.cfg = s.cfg ∧ t.inp = s.inp ∧ t.caller = s.caller

/-! ## The invariant of the state -/

/-- `o` drives exactly the outputs some command of the block names. -/
def Outputs.isAnswer (o : Outputs) : Prop := ∃ i : Instr, i.WellFormed ∧ o.driven = i.names

/-- The ports show nothing yet or the answer of a command, and so does every answer the host holds. -/
def State.Inv (s : State) : Prop :=
  (s.out = Outputs.undriven ∨ s.out.isAnswer) ∧ ∀ o ∈ s.caller.answers, o.isAnswer

/-! ## Runs -/

/-- The answer of one transaction on an instance, taken alone: presented first after reset, to a host that presents
nothing else (R47: "the same outputs it would have had alone"). -/
def aloneAnswer (c : Config) (x : Inputs) : Option Outputs :=
  match step ((State.resetWith c).present x) with
  | .next t => some t.out
  | .fault _ => none
  | .refused _ => none

/-- The transactions of a run from `s`, the one at hand first. -/
def State.script (s : State) : List Inputs := s.inp :: s.caller.todo

end Machine
end Sys2Proof
end

