-- ==== Sys2Proof/Certificates/Slice0/Obligations.lean ====
section
/-! DEFINITION. The statements for the provers. Each docstring names the rule of spec/ it follows. A statement of what an
instruction answers is an equality `exec i s = .next { s with out := … }`: it says that the instruction completes, what it
drives, that every other output is absent, and its frame (the constant, the inputs and the host's side are unchanged; the
block has no register, flag, program counter or memory). -/

open Sys2Proof Sys2Proof.Machine

/-! ## Numbers and operand forms -/

/-- `00_scope.md` R10: `val` is the weighted sum of the limbs and `limbsOf` is its inverse, limb by limb. -/
def Obligations.ValAndLimbsAreWeightedSums : Prop :=
  (∀ a : List Limb, val a = ∑ i ∈ Finset.range a.length, (a.getD i 0).toNat * 2 ^ (64 * i)) ∧
  (∀ (l v i : Nat), i < l → (limbsOf l v)[i]? = some (BitVec.ofNat 64 (v / 2 ^ (64 * i)))) ∧
  (∀ l v : Nat, (limbsOf l v).length = l ∧ val (limbsOf l v) = v % 2 ^ (64 * l))

/-- `10_state.md` R24, `46_vector_8l.md` R200: the operand forms are the named parts of the ports. -/
def Obligations.OperandFormsAreThePortsNamedParts : Prop :=
  ∀ x : Inputs,
    x.scalarA = x.a[0] ∧ x.scalarB = x.b[0] ∧
    (∀ (w : Width) (i : Fin 16), i.val < w.limbs → (x.wideA w)[i.val]? = some x.a[i] ∧ (x.wideB w)[i.val]? = some x.b[i]) ∧
    (∀ w : Width, (x.wideA w).length = w.limbs ∧ (x.wideB w).length = w.limbs ∧ (x.bytes w).length = 8 * w.limbs) ∧
    (∀ i : Fin 8, x.laneA i = x.a[i.val] ∧ x.laneB i = x.b[i.val]) ∧
    (∀ (w : Width) (k : Fin 128), k.val < 8 * w.limbs → (x.bytes w)[k.val]? = some x.bi[k])

/-! ## Encoding -/

/-- `30_encoding.md` R60 to R68: the decoder accepts exactly the words of well-formed commands, each as the one command it
encodes. -/
def Obligations.DecodeAcceptsExactlyTheEncodings : Prop :=
  ∀ (w : CmdWord) (i : Instr), decode w = .ok i ↔ i.WellFormed ∧ encode i = w

/-- `30_encoding.md` R61: the formats' masks, the rows' match words, and selection by mask and match. -/
def Obligations.MaskAndMatchSelectTheOperation : Prop :=
  (Format.p.mask = 0xFFFF ∧ Format.w.mask = 0xFCFF ∧ Format.wk.mask = 0xFEFF ∧ Format.wi.mask = 0x00FF ∧
    Format.v.mask = 0xFF7F ∧ Format.vi.mask = 0x037F) ∧
  (∀ r ∈ opcodeTable, r.matchWord.toNat = r.op.toNat) ∧
  (∀ r ∈ opcodeTable, ∀ w : CmdWord,
    (∃ i, decode w = .ok i ∧ i.mnemonic = r.mnemonic) ↔ w &&& r.format.mask = r.matchWord)

/-- `30_encoding.md` R68: 867 of the 65,536 words are legal. -/
def Obligations.LegalWordsAre867 : Prop :=
  ∃ l : List CmdWord, l.Nodup ∧ l.length = 867 ∧ ∀ w, w ∈ l ↔ ∃ i, decode w = .ok i

/-- `30_encoding.md` R72: the worked encodings, both ways, and the reserved words listed for negative tests. Lines and list are
the spec's own inference from R60 to R68 ("Each line is derived from rules R60 to R66"). -/
def Obligations.WorkedEncodingsDecode : Prop :=
  (∀ p ∈ ([(.adc, 0x0001), (.mul64, 0x0003), (.add .w2, 0x0010), (.add .w8, 0x0210), (.sub .w8, 0x0211),
      (.muls .w8, 0x0212), (.mulw .w16, 0x0313), (.shl .w8 1, 0x0614), (.shr .w4 63, 0xFD15), (.clz .w8, 0x0219),
      (.mulk .w2, 0x0020), (.mulk .w4, 0x0120), (.sqr .w16, 0x0321), (.vadd .vector, 0x0033), (.vadd .fallback, 0x00B3),
      (.vshli .vector 63, 0xFC35), (.vshri .fallback 7, 0x1CB6), (.vzero .vector, 0x0041), (.tobe .w16, 0x0350),
      (.vcapq, 0x0060)] : List (Instr × CmdWord)), decode p.2 = .ok p.1 ∧ encode p.1 = p.2) ∧
  (∀ w ∈ ([0x0000, 0x0101, 0x0081, 0x0410, 0x0220, 0x0320, 0x0133, 0x0433, 0x0090, 0x0135, 0x0061] : List CmdWord),
    ∀ i, decode w ≠ .ok i)

/-! ## One step -/

/-- `00_scope.md` R14, `10_state.md` R23, R33: a step runs the decoded command, then the host takes the answer and presents
its next transaction (the model's own host agent, log entry 3). A well-formed command presented by
`withFetchWord`, the model's own stand-in for a host that presents a word (DESIGN CHOICE, log entry 4), is the one decoded. -/
def Obligations.StepRunsTheDecodedCommand : Prop :=
  (∀ (s : State) (i : Instr), decode s.inp.cmd = .ok i →
    step s =
      match exec i s with
      | .next t => .next { t with inp := t.caller.todo.headD t.inp,
                                  caller := ⟨t.caller.todo.tail, t.caller.answers ++ [t.out]⟩ }
      | .fault f => .fault f
      | .refused r => .refused r) ∧
  (∀ (s : State) (i : Instr), i.WellFormed →
    (s.withFetchWord 16 (encode i).toNat).inp.cmd = encode i ∧
      decode (s.withFetchWord 16 (encode i).toNat).inp.cmd = .ok i)

/-- `60_exceptions.md` R271, R274, R281: decode first, a reserved word is refused whatever `VCAP` is; then the capability
guard; every other transaction completes. No step faults. -/
def Obligations.StepRefusesExactlyTheBreaches : Prop :=
  (∀ (s : State) (e : Reserved), decode s.inp.cmd = .error e → step s = .refused .reservedCommand) ∧
  (∀ (s : State) (i : Instr), decode s.inp.cmd = .ok i → i.path = some .vector → s.cfg.vcap = false →
    step s = .refused .vectorWithoutCapability) ∧
  (∀ (s : State) (i : Instr), decode s.inp.cmd = .ok i → (i.path = some .vector → s.cfg.vcap = true) →
    ∃ t, step s = .next t)

/-- `60_exceptions.md` R271, R272: a run that comes to a transaction in breach of a caller obligation is refused with the
reason R271 gives that breach, whatever the host would present after it ("no claim about the run can be proved past it");
and no run is refused without such a breach. The transactions of a run are those of the host agent (log entry 3). -/
def Obligations.RefusalEndsTheRun : Prop :=
  (∀ (s t : State) (n : Nat), Host.Core.run Sys2Proof.core n s = .next t → Inputs.allowed t.cfg t.inp = false →
    ((∃ e, decode t.inp.cmd = .error e) ∧
      ∀ k : Nat, Host.Core.run Sys2Proof.core (n + 1 + k) s = .refused .reservedCommand) ∨
    ((∃ i, decode t.inp.cmd = .ok i ∧ i.path = some .vector ∧ s.cfg.vcap = false) ∧
      ∀ k : Nat, Host.Core.run Sys2Proof.core (n + 1 + k) s = .refused .vectorWithoutCapability)) ∧
  (∀ (s : State) (n : Nat) (r : Refusal), Host.Core.run Sys2Proof.core n s = .refused r →
    ∃ (m : Nat) (t : State), m < n ∧ Host.Core.run Sys2Proof.core m s = .next t ∧ Inputs.allowed t.cfg t.inp = false)

/-- `10_state.md` R28, R33, `20_memory.md` R45: no command changes the constant, the inputs or what the host holds, and a
transaction is idempotent: presenting it again gives the same answer. No step changes the constant, and the host loses no
answer (its list of answers is the model's own, log entry 3). -/
def Obligations.OnlyTheOutputsChange : Prop :=
  (∀ (i : Instr) (s t : State), exec i s = .next t → s.sameButOut t ∧ exec i t = .next t) ∧
  (∀ s t : State, step s = .next t → t.cfg = s.cfg ∧ t.caller.answers = s.caller.answers ++ [t.out])

/-- `10_state.md` R27: the outputs an operation names are driven, with exactly the stated lengths, and no other. -/
def Obligations.ExactlyTheNamedOutputsAreDriven : Prop :=
  ∀ (i : Instr) (s t : State), exec i s = .next t → t.out.driven = i.names

/-- `10_state.md` R26 (with R23): the outcome depends on the named inputs and `VCAP` only, not on the other inputs, nor on
what the output ports show, nor on the host's side. -/
def Obligations.UnnamedInputsDoNotMatter : Prop :=
  ∀ (i : Instr) (s s' : State), s.cfg = s'.cfg → s.inp.agreeOn i s'.inp →
    (∀ t, exec i s = .next t → exec i s' = .next { s' with out := t.out }) ∧
    (∀ r, exec i s = .refused r → exec i s' = .refused r)

/-! ## Invariant, reset, runs -/

/-- `10_state.md` R27, R33: from every state whose output ports and held answers are answers of commands, a step leads to
such a state. The list of held answers is the model's own (log entry 3). -/
def Obligations.StepKeepsEveryAnswerWellShaped : Prop :=
  ∀ s t : State, s.Inv → step s = .next t → t.Inv

/-- `10_state.md` R32: after reset the state meets the invariant, on every instance. That no answer is held after reset
is the model's choice (log entry 3). -/
def Obligations.ResetMeetsTheInvariant : Prop :=
  ∀ c : Config, (State.resetWith c).Inv

/-- `10_state.md` R32, `70_reset_and_hazards.md` R300: reset leaves `VCAP` as it is and the outputs unspecified, and the
first transaction after it is answered as the same transaction is at any other time. (That the host's side is empty is
the model's choice, log entry 3; the value of `VCAP` in `State.reset` is not rested on.) -/
def Obligations.ResetLeavesTheConstantAndNoOutput : Prop :=
  (∀ c : Config, (State.resetWith c).cfg = c ∧ (State.resetWith c).out = ⟨[], none, none, none, none, []⟩ ∧
    (State.resetWith c).caller = ⟨[], []⟩) ∧
  (State.reset = State.resetWith State.reset.cfg) ∧
  (∀ s t : State, step s = .next t → aloneAnswer s.cfg s.inp = some t.out) ∧
  (∀ (s : State) (r : Refusal), step s = .refused r →
    step ((State.resetWith s.cfg).present s.inp) = .refused r)

/-- `20_memory.md` R47: a run of allowed transactions answers each of them exactly as it would be answered alone, in the
order presented. The script, the held answers and the empty list at the end are the model's own host agent (log entry 3). -/
def Obligations.RunAnswersEachTransactionAsAlone : Prop :=
  ∀ s : State, (∀ x ∈ s.script, Inputs.allowed s.cfg x = true) →
    ∃ t : State, Host.Core.run Sys2Proof.core s.script.length s = .next t ∧ t.cfg = s.cfg ∧ t.caller.todo = [] ∧
      t.caller.answers.map some = s.caller.answers.map some ++ s.script.map (aloneAnswer s.cfg)

/-- `20_memory.md` R47: any two orders of the same transactions, from hosts that hold no answer yet, give each
transaction the same answer. The host's lists are the model's own (log entry 3). -/
def Obligations.EveryInterleavingGivesTheSameAnswers : Prop :=
  ∀ s s' : State, s.cfg = s'.cfg → s.caller.answers = [] → s'.caller.answers = [] → s.script.Perm s'.script →
    (∀ x ∈ s.script, Inputs.allowed s.cfg x = true) →
    ∃ t t' : State, Host.Core.run Sys2Proof.core s.script.length s = .next t ∧
      Host.Core.run Sys2Proof.core s'.script.length s' = .next t' ∧
      (s.script.zip t.caller.answers).Perm (s'.script.zip t'.caller.answers)

/-! ## Scalar primitives -/

/-- `40_scalar_primitives.md` R100. -/
def Obligations.AdcGivesSumAndCarry : Prop :=
  encode .adc = 0x0001 ∧
  ∀ s : State, ∃ (r : Limb) (co : Bool),
    exec .adc s = .next { s with out := { Outputs.undriven with r := [r], cout := some co } } ∧
    r.toNat = (s.inp.a[0].toNat + s.inp.b[0].toNat + s.inp.cin.toNat) % 2 ^ 64 ∧
    (co = true ↔ 2 ^ 64 ≤ s.inp.a[0].toNat + s.inp.b[0].toNat + s.inp.cin.toNat)

/-- `40_scalar_primitives.md` R102: the remainder is the non-negative one, the comparison is not wrapped. -/
def Obligations.SbbGivesDifferenceAndBorrow : Prop :=
  encode .sbb = 0x0002 ∧
  ∀ s : State, ∃ (r : Limb) (bo : Bool),
    exec .sbb s = .next { s with out := { Outputs.undriven with r := [r], cout := some bo } } ∧
    (r.toNat : Int) = ((s.inp.a[0].toNat : Int) - s.inp.b[0].toNat - s.inp.cin.toNat) % 2 ^ 64 ∧
    (bo = true ↔ s.inp.a[0].toNat < s.inp.b[0].toNat + s.inp.cin.toNat)

/-- `40_scalar_primitives.md` R104, R106: the exact product and the exact square, low half on `R[0]`, high half on `R[1]`. -/
def Obligations.Mul64AndSqr64GiveBothHalves : Prop :=
  encode .mul64 = 0x0003 ∧ encode .sqr64 = 0x0004 ∧
  ∀ s : State, ∃ lo hi lo' hi' : Limb,
    exec .mul64 s = .next { s with out := { Outputs.undriven with r := [lo, hi] } } ∧
    exec .sqr64 s = .next { s with out := { Outputs.undriven with r := [lo', hi'] } } ∧
    lo.toNat = s.inp.a[0].toNat * s.inp.b[0].toNat % 2 ^ 64 ∧ hi.toNat = s.inp.a[0].toNat * s.inp.b[0].toNat / 2 ^ 64 ∧
    lo'.toNat = s.inp.a[0].toNat * s.inp.a[0].toNat % 2 ^ 64 ∧ hi'.toNat = s.inp.a[0].toNat * s.inp.a[0].toNat / 2 ^ 64

/-- `40_scalar_primitives.md` R101, R103: `ADC` and `SBB` are exact with their carry, and `SBB` of the sum with the same
`b` and carry-in gives back `a` and the carry-out. -/
def Obligations.SbbUndoesAdc : Prop :=
  ∀ (s u : State) (x : Limb) (co : Bool),
    exec .adc s = .next { s with out := { Outputs.undriven with r := [x], cout := some co } } →
    u.inp.a[0] = x → u.inp.b[0] = s.inp.b[0] → u.inp.cin = s.inp.cin →
    x.toNat + co.toNat * 2 ^ 64 = s.inp.a[0].toNat + s.inp.b[0].toNat + s.inp.cin.toNat ∧
    exec .sbb u = .next { u with out := { Outputs.undriven with r := [s.inp.a[0]], cout := some co } }

/-! ## Fixed-width add and subtract -/

/-- `41_fixed_addsub.md` R120: the chain of `adc` from carry 0, ascending limb index, the final carry on `COUT`. `c i` is the
carry into limb i. That the chain starts with carry 0 is the spec's own inference ("There is no carry-in operand", D28). -/
def Obligations.AddChainsTheCarries : Prop :=
  ∀ w : Width, encode (.add w) = BitVec.ofNat 16 (0x0010 + 256 * w.code.toNat) ∧
  ∀ s : State, ∃ (r : List Limb) (c : Nat → Bool),
    exec (.add w) s = .next { s with out := { Outputs.undriven with r := r, cout := some (c w.limbs) } } ∧
    r.length = w.limbs ∧ c 0 = false ∧
    ∀ i : Fin 16, i.val < w.limbs →
      (r.getD i 0).toNat = (s.inp.a[i].toNat + s.inp.b[i].toNat + (c i).toNat) % 2 ^ 64 ∧
      (c (i + 1) = true ↔ 2 ^ 64 ≤ s.inp.a[i].toNat + s.inp.b[i].toNat + (c i).toNat)

/-- `41_fixed_addsub.md` R121, the value law of `ADD`. -/
def Obligations.AddIsExactWithItsCarry : Prop :=
  ∀ (w : Width) (s : State), ∃ (r : List Limb) (c : Bool),
    exec (.add w) s = .next { s with out := { Outputs.undriven with r := r, cout := some c } } ∧
    r.length = w.limbs ∧
    val r + c.toNat * 2 ^ (64 * w.limbs) = val (s.inp.wideA w) + val (s.inp.wideB w) ∧
    val r = (val (s.inp.wideA w) + val (s.inp.wideB w)) % 2 ^ (64 * w.limbs) ∧
    (c = true ↔ 2 ^ (64 * w.limbs) ≤ val (s.inp.wideA w) + val (s.inp.wideB w))

/-- `41_fixed_addsub.md` R122: the chain of `sbb` from borrow 0, the final borrow on `COUT`. That the chain starts with borrow 0
is the spec's own inference ("There is no borrow-in operand", D28). -/
def Obligations.SubChainsTheBorrows : Prop :=
  ∀ w : Width, encode (.sub w) = BitVec.ofNat 16 (0x0011 + 256 * w.code.toNat) ∧
  ∀ s : State, ∃ (r : List Limb) (c : Nat → Bool),
    exec (.sub w) s = .next { s with out := { Outputs.undriven with r := r, cout := some (c w.limbs) } } ∧
    r.length = w.limbs ∧ c 0 = false ∧
    ∀ i : Fin 16, i.val < w.limbs →
      ((r.getD i 0).toNat : Int) = ((s.inp.a[i].toNat : Int) - s.inp.b[i].toNat - (c i).toNat) % 2 ^ 64 ∧
      (c (i + 1) = true ↔ s.inp.a[i].toNat < s.inp.b[i].toNat + (c i).toNat)

/-- `41_fixed_addsub.md` R123, the value law of `SUB`. -/
def Obligations.SubIsExactWithItsBorrow : Prop :=
  ∀ (w : Width) (s : State), ∃ (r : List Limb) (c : Bool),
    exec (.sub w) s = .next { s with out := { Outputs.undriven with r := r, cout := some c } } ∧
    r.length = w.limbs ∧
    val r + val (s.inp.wideB w) = val (s.inp.wideA w) + c.toNat * 2 ^ (64 * w.limbs) ∧
    (c = true ↔ val (s.inp.wideA w) < val (s.inp.wideB w))

/-- `41_fixed_addsub.md` R124, the source's "Carry correctness": `SUB` of the sum and `b` recovers `a`, and its borrow is the
addition's carry. -/
def Obligations.SubRecoversTheAddend : Prop :=
  ∀ (w : Width) (s u : State) (r : List Limb) (c : Bool),
    exec (.add w) s = .next { s with out := { Outputs.undriven with r := r, cout := some c } } →
    u.inp.wideA w = r → u.inp.wideB w = s.inp.wideB w →
    exec (.sub w) u = .next { u with out := { Outputs.undriven with r := s.inp.wideA w, cout := some c } }

/-! ## Fixed-width multiply -/

/-- `42_fixed_multiply.md` R130, R131: N+1 limbs, the exact product, nothing else driven. -/
def Obligations.MulsIsTheExactProduct : Prop :=
  ∀ w : Width, encode (.muls w) = BitVec.ofNat 16 (0x0012 + 256 * w.code.toNat) ∧
  ∀ s : State, ∃ r : List Limb,
    exec (.muls w) s = .next { s with out := { Outputs.undriven with r := r } } ∧
    r.length = w.limbs + 1 ∧ val r = val (s.inp.wideA w) * s.inp.s.toNat

/-- `42_fixed_multiply.md` R132: an exact 2N-limb result. -/
def Obligations.MulwIsTheExactProduct : Prop :=
  ∀ w : Width, encode (.mulw w) = BitVec.ofNat 16 (0x0013 + 256 * w.code.toNat) ∧
  ∀ s : State, ∃ r : List Limb,
    exec (.mulw w) s = .next { s with out := { Outputs.undriven with r := r } } ∧
    r.length = 2 * w.limbs ∧ val r = val (s.inp.wideA w) * val (s.inp.wideB w)

/-! ## Fixed-width shift -/

/-- `43_fixed_shift.md` R140: `bits = 0` is the identity; else limb 0 is filled with zeros and every other limb from its
lower neighbour. Which neighbour fills is the spec's own inference ("the next *lower* one"). -/
def Obligations.ShlFillsFromTheLowerLimb : Prop :=
  ∀ (w : Width) (bits : Count),
  encode (.shl w bits) = BitVec.ofNat 16 (0x0014 + 256 * w.code.toNat + 1024 * bits.toNat) ∧
  ∀ s : State, ∃ r : List Limb,
    exec (.shl w bits) s = .next { s with out := { Outputs.undriven with r := r } } ∧ r.length = w.limbs ∧
    (bits = 0 → ∀ i : Fin 16, i.val < w.limbs → r[i.val]? = some s.inp.a[i]) ∧
    (bits ≠ 0 → r[0]? = some (s.inp.a[0] <<< bits.toNat) ∧
      ∀ i : Fin 15, i.val + 1 < w.limbs →
        r[i.val + 1]? = some ((s.inp.a[i.val + 1] <<< bits.toNat) ||| (s.inp.a[i.val] >>> (64 - bits.toNat))))

/-- `43_fixed_shift.md` R142: every limb but the top one is filled from its upper neighbour, the top one with zeros. Which
neighbour fills is the spec's own inference ("the neighbour is the next *higher* limb"). -/
def Obligations.ShrFillsFromTheUpperLimb : Prop :=
  ∀ (w : Width) (bits : Count),
  encode (.shr w bits) = BitVec.ofNat 16 (0x0015 + 256 * w.code.toNat + 1024 * bits.toNat) ∧
  ∀ s : State, ∃ r : List Limb,
    exec (.shr w bits) s = .next { s with out := { Outputs.undriven with r := r } } ∧ r.length = w.limbs ∧
    (bits = 0 → ∀ i : Fin 16, i.val < w.limbs → r[i.val]? = some s.inp.a[i]) ∧
    (bits ≠ 0 →
      (∀ i : Fin 16, i.val + 1 = w.limbs → r[i.val]? = some (s.inp.a[i] >>> bits.toNat)) ∧
      ∀ i : Fin 15, i.val + 1 < w.limbs →
        r[i.val]? = some ((s.inp.a[i.val] >>> bits.toNat) ||| (s.inp.a[i.val + 1] <<< (64 - bits.toNat))))

/-- `43_fixed_shift.md` R141, R143, the value laws. -/
def Obligations.ShiftsByValue : Prop :=
  ∀ (w : Width) (bits : Count) (s : State), ∃ l r : List Limb,
    exec (.shl w bits) s = .next { s with out := { Outputs.undriven with r := l } } ∧
    exec (.shr w bits) s = .next { s with out := { Outputs.undriven with r := r } } ∧
    val l = val (s.inp.wideA w) * 2 ^ bits.toNat % 2 ^ (64 * w.limbs) ∧
    val r = val (s.inp.wideA w) / 2 ^ bits.toNat

/-- `43_fixed_shift.md` R144: left then right clears the top k bits, right then left the bottom k bits. -/
def Obligations.ShiftRoundTripsClearBits : Prop :=
  ∀ (w : Width) (k : Count) (s u : State) (l : List Limb),
    (exec (.shl w k) s = .next { s with out := { Outputs.undriven with r := l } } → u.inp.wideA w = l →
      ∃ r : List Limb, exec (.shr w k) u = .next { u with out := { Outputs.undriven with r := r } } ∧
        val r = val (s.inp.wideA w) % 2 ^ (64 * w.limbs - k.toNat)) ∧
    (exec (.shr w k) s = .next { s with out := { Outputs.undriven with r := l } } → u.inp.wideA w = l →
      ∃ r : List Limb, exec (.shl w k) u = .next { u with out := { Outputs.undriven with r := r } } ∧
        val r = val (s.inp.wideA w) - val (s.inp.wideA w) % 2 ^ k.toNat)

/-! ## Compare, count, predicates -/

/-- `44_fixed_compare.md` R150, R151, R152: `EQ` compares every limb; `LT` and `GT` are decided at the highest index where the
operands differ, unsigned; `GT.N` of (a, b) is `LT.N` of (b, a). -/
def Obligations.ComparesDecideAtTheHighestDifference : Prop :=
  ∀ w : Width,
  (encode (.eq w) = BitVec.ofNat 16 (0x0016 + 256 * w.code.toNat) ∧
    encode (.lt w) = BitVec.ofNat 16 (0x0017 + 256 * w.code.toNat) ∧
    encode (.gt w) = BitVec.ofNat 16 (0x0018 + 256 * w.code.toNat)) ∧
  ∀ s : State, ∃ e l g : Bool,
    exec (.eq w) s = .next { s with out := { Outputs.undriven with flag := some e } } ∧
    exec (.lt w) s = .next { s with out := { Outputs.undriven with flag := some l } } ∧
    exec (.gt w) s = .next { s with out := { Outputs.undriven with flag := some g } } ∧
    (e = true ↔ ∀ i : Fin 16, i.val < w.limbs → s.inp.a[i] = s.inp.b[i]) ∧
    (l = true ↔ ∃ i : Fin 16, i.val < w.limbs ∧ s.inp.a[i].toNat < s.inp.b[i].toNat ∧
      ∀ j : Fin 16, i < j → j.val < w.limbs → s.inp.a[j] = s.inp.b[j]) ∧
    (g = true ↔ ∃ i : Fin 16, i.val < w.limbs ∧ s.inp.b[i].toNat < s.inp.a[i].toNat ∧
      ∀ j : Fin 16, i < j → j.val < w.limbs → s.inp.a[j] = s.inp.b[j]) ∧
    ∀ u : State, u.inp.wideA w = s.inp.wideB w → u.inp.wideB w = s.inp.wideA w →
      exec (.lt w) u = .next { u with out := { Outputs.undriven with flag := some g } }

/-- `44_fixed_compare.md` R153: the three comparisons are those of the values, and exactly one of them holds. -/
def Obligations.CompareByValueIsTotal : Prop :=
  ∀ (w : Width) (s : State), ∃ e l g : Bool,
    exec (.eq w) s = .next { s with out := { Outputs.undriven with flag := some e } } ∧
    exec (.lt w) s = .next { s with out := { Outputs.undriven with flag := some l } } ∧
    exec (.gt w) s = .next { s with out := { Outputs.undriven with flag := some g } } ∧
    (e = true ↔ val (s.inp.wideA w) = val (s.inp.wideB w)) ∧
    (l = true ↔ val (s.inp.wideA w) < val (s.inp.wideB w)) ∧
    (g = true ↔ val (s.inp.wideB w) < val (s.inp.wideA w)) ∧
    e.toNat + l.toNat + g.toNat = 1

/-- `44_fixed_compare.md` R154 (with `clz64` of `00_scope.md` R11): counted from the highest nonzero limb; `64·N` for zero. -/
def Obligations.ClzCountsFromTheTopLimb : Prop :=
  ∀ w : Width, encode (.clz w) = BitVec.ofNat 16 (0x0019 + 256 * w.code.toNat) ∧
  ∀ s : State, ∃ c : BitVec 32,
    exec (.clz w) s = .next { s with out := { Outputs.undriven with cnt := some c } } ∧
    ((∀ i : Fin 16, i.val < w.limbs → s.inp.a[i] = 0) → c.toNat = 64 * w.limbs) ∧
    (∀ i : Fin 16, i.val < w.limbs → s.inp.a[i] ≠ 0 → (∀ j : Fin 16, i < j → j.val < w.limbs → s.inp.a[j] = 0) →
      c.toNat = 64 * (w.limbs - 1 - i.val) + (63 - s.inp.a[i].toNat.log2))

/-- `44_fixed_compare.md` R155, the value law of `CLZ`. -/
def Obligations.ClzIsTheWidthLessTheBitLength : Prop :=
  ∀ (w : Width) (s : State), ∃ c : BitVec 32,
    exec (.clz w) s = .next { s with out := { Outputs.undriven with cnt := some c } } ∧
    c.toNat = 64 * w.limbs - bitlen (val (s.inp.wideA w)) ∧ bitlen (val (s.inp.wideA w)) ≤ 64 * w.limbs

/-- `44_fixed_compare.md` R156, R157: `ISZERO` is 1 iff every limb, hence the value, is zero; `ISEVEN` is 1 iff bit 0 of limb 0
is 0, hence iff the value is even. -/
def Obligations.IszeroAndIsevenTestTheValue : Prop :=
  ∀ w : Width,
  (encode (.iszero w) = BitVec.ofNat 16 (0x001A + 256 * w.code.toNat) ∧
    encode (.iseven w) = BitVec.ofNat 16 (0x001B + 256 * w.code.toNat)) ∧
  ∀ s : State, ∃ z e : Bool,
    exec (.iszero w) s = .next { s with out := { Outputs.undriven with flag := some z } } ∧
    exec (.iseven w) s = .next { s with out := { Outputs.undriven with flag := some e } } ∧
    (z = true ↔ ∀ i : Fin 16, i.val < w.limbs → s.inp.a[i] = 0) ∧ (z = true ↔ val (s.inp.wideA w) = 0) ∧
    (e = true ↔ s.inp.a[0].getLsbD 0 = false) ∧ (e = true ↔ val (s.inp.wideA w) % 2 = 0)

/-! ## Karatsuba and squaring -/

/-- `45_karatsuba.md` R170: the exact Wide Product at 2 and at 4 limbs. -/
def Obligations.MulkIsTheExactProduct : Prop :=
  encode (.mulk .w2) = 0x0020 ∧ encode (.mulk .w4) = 0x0120 ∧
  ∀ w : Width, w = .w2 ∨ w = .w4 → ∀ s : State, ∃ r : List Limb,
    exec (.mulk w) s = .next { s with out := { Outputs.undriven with r := r } } ∧
    r.length = 2 * w.limbs ∧ val r = val (s.inp.wideA w) * val (s.inp.wideB w)

/-- `45_karatsuba.md` R171: the Karatsuba datapath and the schoolbook one give bit-identical results. -/
def Obligations.KaratsubaEqualsSchoolbook : Prop :=
  (∀ a b : List Limb, a.length = 2 → b.length = 2 → k2 a b = mulwN a b ∧ k2 a b = limbsOf 4 (val a * val b)) ∧
  (∀ a b : List Limb, a.length = 4 → b.length = 4 → k4 a b = mulwN a b ∧ k4 a b = limbsOf 8 (val a * val b)) ∧
  ∀ w : Width, w = .w2 ∨ w = .w4 → ∀ s : State, ∃ t, exec (.mulk w) s = .next t ∧ exec (.mulw w) s = .next t

/-- `30_encoding.md` R64, `45_karatsuba.md` R175: no word decodes to a `MULK` above 4 limbs, and such a term is refused. -/
def Obligations.MulkHasNoWiderForm : Prop :=
  ∀ w : Width, w = .w8 ∨ w = .w16 →
    (∀ cmd : CmdWord, decode cmd ≠ .ok (.mulk w)) ∧ ∀ s : State, exec (.mulk w) s = .refused .reservedCommand

/-- `45_karatsuba.md` R180: the exact square, 2N limbs, at every width; `B` is ignored. -/
def Obligations.SqrIsTheExactSquare : Prop :=
  ∀ w : Width, encode (.sqr w) = BitVec.ofNat 16 (0x0021 + 256 * w.code.toNat) ∧
  ∀ s : State, ∃ r : List Limb,
    exec (.sqr w) s = .next { s with out := { Outputs.undriven with r := r } } ∧
    r.length = 2 * w.limbs ∧ val r = val (s.inp.wideA w) ^ 2

/-- `45_karatsuba.md` R182: the symmetric squarer equals the schoolbook product of the value with itself. -/
def Obligations.SquareEqualsSelfMultiply : Prop :=
  (∀ a : List Limb, sqrN a = mulwN a a) ∧
  ∀ (w : Width) (s : State), s.inp.wideB w = s.inp.wideA w → ∃ t, exec (.sqr w) s = .next t ∧ exec (.mulw w) s = .next t

/-! ## The vector kernel -/

/-- `46_vector_8l.md` R201: the capability precondition of every vector command. -/
def Obligations.VectorCommandsAreGuarded : Prop :=
  ∀ (i : Instr) (s : State),
    (i.path = some .vector → s.cfg.vcap = false → exec i s = .refused .vectorWithoutCapability) ∧
    (i.path = some .vector → s.cfg.vcap = true → ∃ t, exec i s = .next t) ∧
    (i.path = some .fallback → ∃ t, exec i s = .next t)

/-- `46_vector_8l.md` R202: path equivalence. -/
def Obligations.PathsGiveTheSameAnswers : Prop :=
  ∀ (i : Instr) (s : State), i.path ≠ none → s.cfg.vcap = true →
    exec (i.onPath .vector) s = exec (i.onPath .fallback) s ∧ ∃ t, exec (i.onPath .fallback) s = .next t

/-- `46_vector_8l.md` R203: lane independence, and `VADD` is not `ADD.8`. That bit i of `K` and `KOUT` belongs to lane i
is the spec's own decision (D15; log entry 8). -/
def Obligations.LanesAreIndependent : Prop :=
  (∀ i : Instr, i.laneWise = true → ∀ s s' t t' : State, exec i s = .next t → exec i s' = .next t' →
    ∀ j : Fin 8, s.inp.a[j.val] = s'.inp.a[j.val] → s.inp.b[j.val] = s'.inp.b[j.val] →
      s.inp.k.getLsbD j.val = s'.inp.k.getLsbD j.val →
      t.out.r[j.val]? = t'.out.r[j.val]? ∧
        t.out.kout.map (fun m => m.getLsbD j.val) = t'.out.kout.map (fun m => m.getLsbD j.val)) ∧
  (∃ s t u : State, exec (.vadd .fallback) s = .next t ∧ exec (.add .w8) s = .next u ∧ t.out.r ≠ u.out.r)

/-- `46_vector_8l.md` R205, R206, R207. -/
def Obligations.VectorBitwiseByLane : Prop :=
  ∀ p : Path,
  (encode (.vxor p) = BitVec.ofNat 16 (0x0030 + 128 * p.bit.toNat) ∧
    encode (.vand p) = BitVec.ofNat 16 (0x0031 + 128 * p.bit.toNat) ∧
    encode (.vor p) = BitVec.ofNat 16 (0x0032 + 128 * p.bit.toNat)) ∧
  ∀ s : State, (p = .vector → s.cfg.vcap = true) → ∃ x a o : List Limb,
    exec (.vxor p) s = .next { s with out := { Outputs.undriven with r := x } } ∧
    exec (.vand p) s = .next { s with out := { Outputs.undriven with r := a } } ∧
    exec (.vor p) s = .next { s with out := { Outputs.undriven with r := o } } ∧
    x.length = 8 ∧ a.length = 8 ∧ o.length = 8 ∧
    ∀ i : Fin 8, x[i.val]? = some (s.inp.a[i.val] ^^^ s.inp.b[i.val]) ∧
      a[i.val]? = some (s.inp.a[i.val] &&& s.inp.b[i.val]) ∧ o[i.val]? = some (s.inp.a[i.val] ||| s.inp.b[i.val])

/-- `46_vector_8l.md` R208, R209: each lane wraps modulo 2^64 on its own, nothing else is driven. -/
def Obligations.VectorAddSubWrapByLane : Prop :=
  ∀ p : Path,
  (encode (.vadd p) = BitVec.ofNat 16 (0x0033 + 128 * p.bit.toNat) ∧
    encode (.vsub p) = BitVec.ofNat 16 (0x0034 + 128 * p.bit.toNat)) ∧
  ∀ s : State, (p = .vector → s.cfg.vcap = true) → ∃ x y : List Limb,
    exec (.vadd p) s = .next { s with out := { Outputs.undriven with r := x } } ∧
    exec (.vsub p) s = .next { s with out := { Outputs.undriven with r := y } } ∧
    x.length = 8 ∧ y.length = 8 ∧
    ∀ i : Fin 8, (x.getD i 0).toNat = (s.inp.a[i.val].toNat + s.inp.b[i.val].toNat) % 2 ^ 64 ∧
      ((y.getD i 0).toNat : Int) = ((s.inp.a[i.val].toNat : Int) - s.inp.b[i.val].toNat) % 2 ^ 64

/-- `46_vector_8l.md` R211, R212: the same count for every lane, zero fill. That right shifts are logical and that the count
is 0 to 63 is the spec's own decision (D11, D13; log entry 8). -/
def Obligations.VectorImmediateShiftsByLane : Prop :=
  ∀ (p : Path) (count : Count),
  (encode (.vshli p count) = BitVec.ofNat 16 (0x0035 + 128 * p.bit.toNat + 1024 * count.toNat) ∧
    encode (.vshri p count) = BitVec.ofNat 16 (0x0036 + 128 * p.bit.toNat + 1024 * count.toNat)) ∧
  ∀ s : State, (p = .vector → s.cfg.vcap = true) → ∃ x y : List Limb,
    exec (.vshli p count) s = .next { s with out := { Outputs.undriven with r := x } } ∧
    exec (.vshri p count) s = .next { s with out := { Outputs.undriven with r := y } } ∧
    x.length = 8 ∧ y.length = 8 ∧
    ∀ i : Fin 8, (x.getD i 0).toNat = s.inp.a[i.val].toNat * 2 ^ count.toNat % 2 ^ 64 ∧
      (y.getD i 0).toNat = s.inp.a[i.val].toNat / 2 ^ count.toNat

/-- `46_vector_8l.md` R213, R214: the count is the whole 64-bit lane of `B`. That a count of 64 or more gives 0 is the spec's
own decision (D12, D13; log entry 8). -/
def Obligations.VectorVariableShiftsByLane : Prop :=
  ∀ p : Path,
  (encode (.vshlv p) = BitVec.ofNat 16 (0x0037 + 128 * p.bit.toNat) ∧
    encode (.vshrv p) = BitVec.ofNat 16 (0x0038 + 128 * p.bit.toNat)) ∧
  ∀ s : State, (p = .vector → s.cfg.vcap = true) → ∃ x y : List Limb,
    exec (.vshlv p) s = .next { s with out := { Outputs.undriven with r := x } } ∧
    exec (.vshrv p) s = .next { s with out := { Outputs.undriven with r := y } } ∧
    x.length = 8 ∧ y.length = 8 ∧
    ∀ i : Fin 8,
      (64 ≤ s.inp.b[i.val].toNat → x[i.val]? = some 0 ∧ y[i.val]? = some 0) ∧
      (s.inp.b[i.val].toNat < 64 →
        (x.getD i 0).toNat = s.inp.a[i.val].toNat * 2 ^ s.inp.b[i.val].toNat % 2 ^ 64 ∧
        (y.getD i 0).toNat = s.inp.a[i.val].toNat / 2 ^ s.inp.b[i.val].toNat)

/-- `46_vector_8l.md` R216: one boolean, 1 only if all 8 lanes match. -/
def Obligations.VeqNeedsAllLanesEqual : Prop :=
  ∀ p : Path, encode (.veq p) = BitVec.ofNat 16 (0x0039 + 128 * p.bit.toNat) ∧
  ∀ s : State, (p = .vector → s.cfg.vcap = true) → ∃ f : Bool,
    exec (.veq p) s = .next { s with out := { Outputs.undriven with flag := some f } } ∧
    (f = true ↔ ∀ i : Fin 8, s.inp.a[i.val] = s.inp.b[i.val]) ∧
    ∀ u : State, exec (.eq .w8) s = .next u → u.out.flag = some f

/-- `46_vector_8l.md` R217 to R220: bit i of the mask is the unsigned comparison of lane i; minimum and maximum of each lane.
Unsignedness and the bit order are the spec's own decisions (D14, D15; log entry 8). -/
def Obligations.VectorComparesMinAndMaxByLane : Prop :=
  ∀ p : Path,
  (encode (.vltm p) = BitVec.ofNat 16 (0x003A + 128 * p.bit.toNat) ∧
    encode (.vgtm p) = BitVec.ofNat 16 (0x003B + 128 * p.bit.toNat) ∧
    encode (.vmin p) = BitVec.ofNat 16 (0x003C + 128 * p.bit.toNat) ∧
    encode (.vmax p) = BitVec.ofNat 16 (0x003D + 128 * p.bit.toNat)) ∧
  ∀ s : State, (p = .vector → s.cfg.vcap = true) → ∃ (l g : LaneMask) (x y : List Limb),
    exec (.vltm p) s = .next { s with out := { Outputs.undriven with kout := some l } } ∧
    exec (.vgtm p) s = .next { s with out := { Outputs.undriven with kout := some g } } ∧
    exec (.vmin p) s = .next { s with out := { Outputs.undriven with r := x } } ∧
    exec (.vmax p) s = .next { s with out := { Outputs.undriven with r := y } } ∧
    x.length = 8 ∧ y.length = 8 ∧
    ∀ i : Fin 8, (l.getLsbD i.val = true ↔ s.inp.a[i.val].toNat < s.inp.b[i.val].toNat) ∧
      (g.getLsbD i.val = true ↔ s.inp.b[i.val].toNat < s.inp.a[i.val].toNat) ∧
      (x.getD i 0).toNat = min s.inp.a[i.val].toNat s.inp.b[i.val].toNat ∧
      (y.getD i 0).toNat = max s.inp.a[i.val].toNat s.inp.b[i.val].toNat

/-- `46_vector_8l.md` R221, R222: blend takes `B[i]` where mask bit i is 1, else `A[i]`; permute gathers `A[B[i] mod 8]`. The
polarity, the direction and the reduction of the index are the spec's own decisions (D15, D16, D17; log entry 8). -/
def Obligations.VectorBlendAndPermuteByLane : Prop :=
  ∀ p : Path,
  (encode (.vblend p) = BitVec.ofNat 16 (0x003E + 128 * p.bit.toNat) ∧
    encode (.vperm p) = BitVec.ofNat 16 (0x003F + 128 * p.bit.toNat)) ∧
  ∀ s : State, (p = .vector → s.cfg.vcap = true) → ∃ x y : List Limb,
    exec (.vblend p) s = .next { s with out := { Outputs.undriven with r := x } } ∧
    exec (.vperm p) s = .next { s with out := { Outputs.undriven with r := y } } ∧
    x.length = 8 ∧ y.length = 8 ∧
    ∀ i : Fin 8,
      x[i.val]? = some (if s.inp.k.getLsbD i.val = true then s.inp.b[i.val] else s.inp.a[i.val]) ∧
      y[i.val]? = s.inp.a[s.inp.b[i.val].toNat % 8]?

/-- `46_vector_8l.md` R223, R224: `S` in every lane; zero in every lane. The meanings and the port `S` are the spec's own
decision (D18; log entry 8). -/
def Obligations.VectorSplatAndZero : Prop :=
  ∀ p : Path,
  (encode (.vsplat p) = BitVec.ofNat 16 (0x0040 + 128 * p.bit.toNat) ∧
    encode (.vzero p) = BitVec.ofNat 16 (0x0041 + 128 * p.bit.toNat)) ∧
  ∀ s : State, (p = .vector → s.cfg.vcap = true) →
    exec (.vsplat p) s = .next { s with out := { Outputs.undriven with r := List.replicate 8 s.inp.s } } ∧
    exec (.vzero p) s = .next { s with out := { Outputs.undriven with r := List.replicate 8 0 } }

/-- `46_vector_8l.md` R225, the identities of the compares: maximum and minimum are blends under the compare masks, the two
masks are disjoint and miss exactly the equal lanes, `VEQ` is both masks zero. Unsigned lanes, the mask's bit order and the
blend's polarity are the spec's own decisions (D14, D15, D16; log entry 8). -/
def Obligations.VectorCompareIdentities : Prop :=
  ∀ (p : Path) (s : State), (p = .vector → s.cfg.vcap = true) → ∃ (l g : LaneMask) (f : Bool) (mn mx : List Limb),
    exec (.vltm p) s = .next { s with out := { Outputs.undriven with kout := some l } } ∧
    exec (.vgtm p) s = .next { s with out := { Outputs.undriven with kout := some g } } ∧
    exec (.veq p) s = .next { s with out := { Outputs.undriven with flag := some f } } ∧
    exec (.vmin p) s = .next { s with out := { Outputs.undriven with r := mn } } ∧
    exec (.vmax p) s = .next { s with out := { Outputs.undriven with r := mx } } ∧
    exec (.vblend p) { s with inp := { s.inp with k := l } } =
      .next { s with inp := { s.inp with k := l }, out := { Outputs.undriven with r := mx } } ∧
    exec (.vblend p) { s with inp := { s.inp with k := g } } =
      .next { s with inp := { s.inp with k := g }, out := { Outputs.undriven with r := mn } } ∧
    l &&& g = 0 ∧
    (∀ i : Fin 8, (l ||| g).getLsbD i.val = false ↔ s.inp.a[i.val] = s.inp.b[i.val]) ∧
    (f = true ↔ l = 0 ∧ g = 0)

/-- `46_vector_8l.md` R225, the identities of the moves, for a transaction `s` and a later one `u` on the same instance:
`VSUB` undoes `VADD`, `VXOR` undoes itself, a variable shift by a splatted count is the immediate shift, the identity
permutation, and blend with the operands swapped under the complemented mask. -/
def Obligations.VectorMoveIdentities : Prop :=
  ∀ (p : Path) (s u : State), (p = .vector → s.cfg.vcap = true) → u.cfg = s.cfg →
    (∀ t, exec (.vadd p) s = .next t → (∀ i : Fin 8, t.out.r[i.val]? = some u.inp.a[i.val]) →
      (∀ i : Fin 8, u.inp.b[i.val] = s.inp.b[i.val]) →
      ∃ v, exec (.vsub p) u = .next v ∧ ∀ i : Fin 8, v.out.r[i.val]? = some s.inp.a[i.val]) ∧
    (∀ t, exec (.vxor p) s = .next t → (∀ i : Fin 8, t.out.r[i.val]? = some u.inp.a[i.val]) →
      (∀ i : Fin 8, u.inp.b[i.val] = s.inp.b[i.val]) →
      ∃ v, exec (.vxor p) u = .next v ∧ ∀ i : Fin 8, v.out.r[i.val]? = some s.inp.a[i.val]) ∧
    (∀ c : Count, (∀ i : Fin 8, s.inp.b[i.val] = BitVec.ofNat 64 c.toNat) →
      exec (.vshlv p) s = exec (.vshli p c) s ∧ exec (.vshrv p) s = exec (.vshri p c) s) ∧
    ((∀ i : Fin 8, s.inp.b[i.val] = BitVec.ofNat 64 i.val) →
      ∃ v, exec (.vperm p) s = .next v ∧ ∀ i : Fin 8, v.out.r[i.val]? = some s.inp.a[i.val]) ∧
    ((∀ i : Fin 8, u.inp.a[i.val] = s.inp.b[i.val] ∧ u.inp.b[i.val] = s.inp.a[i.val]) → u.inp.k = ~~~s.inp.k →
      ∃ v v', exec (.vblend p) s = .next v ∧ exec (.vblend p) u = .next v' ∧ v.out.r = v'.out.r)

/-! ## Byte interop and the capability query -/

/-- `47_byte_interop.md` R250, R251: the byte formulas over the whole value (the reading of the two byte orders is the
spec's own, D21, G1; log entry 9). -/
def Obligations.ToBytesByPosition : Prop :=
  ∀ w : Width,
  (encode (.tobe w) = BitVec.ofNat 16 (0x0050 + 256 * w.code.toNat) ∧
    encode (.tole w) = BitVec.ofNat 16 (0x0051 + 256 * w.code.toNat)) ∧
  ∀ s : State, ∃ x y : List Byte,
    exec (.tobe w) s = .next { s with out := { Outputs.undriven with bo := x } } ∧
    exec (.tole w) s = .next { s with out := { Outputs.undriven with bo := y } } ∧
    x.length = 8 * w.limbs ∧ y.length = 8 * w.limbs ∧
    ∀ k : Nat, k < 8 * w.limbs →
      (x.getD k 0).toNat = val (s.inp.wideA w) / 2 ^ (8 * (8 * w.limbs - 1 - k)) % 256 ∧
      (y.getD k 0).toNat = val (s.inp.wideA w) / 2 ^ (8 * k) % 256

/-- `47_byte_interop.md` R252, R253: the value is the weighted sum of the bytes (byte orders: D21, G1; log entry 9). -/
def Obligations.FromBytesByWeightedSum : Prop :=
  ∀ w : Width,
  (encode (.frombe w) = BitVec.ofNat 16 (0x0052 + 256 * w.code.toNat) ∧
    encode (.fromle w) = BitVec.ofNat 16 (0x0053 + 256 * w.code.toNat)) ∧
  ∀ s : State, ∃ x y : List Limb,
    exec (.frombe w) s = .next { s with out := { Outputs.undriven with r := x } } ∧
    exec (.fromle w) s = .next { s with out := { Outputs.undriven with r := y } } ∧
    x.length = w.limbs ∧ y.length = w.limbs ∧
    val x = ∑ k ∈ Finset.range (8 * w.limbs), ((s.inp.bytes w).getD k 0).toNat * 2 ^ (8 * (8 * w.limbs - 1 - k)) ∧
    val y = ∑ k ∈ Finset.range (8 * w.limbs), ((s.inp.bytes w).getD k 0).toNat * 2 ^ (8 * k)

/-- `47_byte_interop.md` R254: each conversion undoes its partner, both ways. -/
def Obligations.ByteConversionsRoundTrip : Prop :=
  ∀ (w : Width) (s u : State) (y : List Byte) (r : List Limb),
    (exec (.tobe w) s = .next { s with out := { Outputs.undriven with bo := y } } → u.inp.bytes w = y →
      exec (.frombe w) u = .next { u with out := { Outputs.undriven with r := s.inp.wideA w } }) ∧
    (exec (.tole w) s = .next { s with out := { Outputs.undriven with bo := y } } → u.inp.bytes w = y →
      exec (.fromle w) u = .next { u with out := { Outputs.undriven with r := s.inp.wideA w } }) ∧
    (exec (.frombe w) s = .next { s with out := { Outputs.undriven with r := r } } → u.inp.wideA w = r →
      exec (.tobe w) u = .next { u with out := { Outputs.undriven with bo := s.inp.bytes w } }) ∧
    (exec (.fromle w) s = .next { s with out := { Outputs.undriven with r := r } } → u.inp.wideA w = r →
      exec (.tole w) u = .next { u with out := { Outputs.undriven with bo := s.inp.bytes w } })

/-- `48_capability_query.md` R260, R261: `FLAG` is `VCAP`, whatever the inputs; the answer is the same before and after any run
and across reset. -/
def Obligations.VcapqReadsTheConstant : Prop :=
  encode .vcapq = 0x0060 ∧
  (∀ s : State, exec .vcapq s = .next { s with out := { Outputs.undriven with flag := some s.cfg.vcap } }) ∧
  (∀ (s t : State) (n : Nat), Host.Core.run Sys2Proof.core n s = .next t →
    exec .vcapq t = .next { t with out := { Outputs.undriven with flag := some s.cfg.vcap } } ∧
    exec .vcapq (State.resetWith s.cfg) =
      .next { State.resetWith s.cfg with out := { Outputs.undriven with flag := some s.cfg.vcap } })
end

