-- ==== Sys2Proof/Laws/Limbs.lean ====
section
/-! SUPPORT. Limb sequences as numbers: the lemmas of `val`, `limbsOf`, `adc`, `sbb`, `mul64` and the chains. Later proofs
cite these and unfold none of them. -/

namespace Sys2Proof.Machine

@[simp] theorem val_nil : val [] = 0 := rfl
@[simp] theorem val_cons (x : Limb) (xs : List Limb) : val (x :: xs) = x.toNat + 2 ^ 64 * val xs := rfl

/-- One more limb is a factor of 2^64. -/
theorem pow_limbs_succ (n : Nat) : 2 ^ (64 * (n + 1)) = 2 ^ 64 * 2 ^ (64 * n) := by
  rw [Nat.mul_succ, Nat.pow_add, Nat.mul_comm]

theorem val_lt (a : List Limb) : val a < 2 ^ (64 * a.length) := by
  induction a with
  | nil => simp
  | cons x xs ih =>
    have hx := x.isLt
    rw [List.length_cons, pow_limbs_succ, val_cons]
    nlinarith

theorem val_append (a b : List Limb) : val (a ++ b) = val a + 2 ^ (64 * a.length) * val b := by
  induction a with
  | nil => simp
  | cons x xs ih => rw [List.cons_append, val_cons, ih, val_cons, List.length_cons, pow_limbs_succ]; ring

@[simp] theorem val_replicate_zero (n : Nat) : val (List.replicate n 0) = 0 := by
  induction n with
  | zero => rfl
  | succ n ih => rw [List.replicate_succ, val_cons, ih]; rfl

/-- A sequence is its value at its length. -/
theorem val_inj {a b : List Limb} (hl : a.length = b.length) (hv : val a = val b) : a = b := by
  induction a generalizing b with
  | nil => cases b with
    | nil => rfl
    | cons y ys => simp at hl
  | cons x xs ih => cases b with
    | nil => simp at hl
    | cons y ys =>
      have hx := x.isLt
      have hy := y.isLt
      simp only [val_cons] at hv
      have h1 : x.toNat = y.toNat := by omega
      have h2 : val xs = val ys := by omega
      rw [BitVec.eq_of_toNat_eq h1, ih (by simpa using hl) h2]

@[simp] theorem limbsOf_length (l v : Nat) : (limbsOf l v).length = l := by
  induction l generalizing v with
  | zero => rfl
  | succ l ih => simp [limbsOf, ih]

theorem val_limbsOf (l v : Nat) : val (limbsOf l v) = v % 2 ^ (64 * l) := by
  induction l generalizing v with
  | zero => simp [limbsOf, Nat.mod_one]
  | succ l ih =>
    rw [limbsOf, val_cons, ih, pow_limbs_succ, Nat.mod_mul, BitVec.toNat_ofNat]

theorem limbsOf_val (a : List Limb) : limbsOf a.length (val a) = a :=
  val_inj (by simp) (by rw [val_limbsOf, Nat.mod_eq_of_lt (val_lt a)])

/-! ## The scalar helpers -/

/-- Rule R101: the sum limb and the carry are the exact sum. -/
theorem adc_exact (a b : Limb) (c : Bool) :
    (adc a b c).1.toNat + 2 ^ 64 * (adc a b c).2.toNat = a.toNat + b.toNat + c.toNat := by
  have ha := a.isLt
  have hb := b.isLt
  have hc : c.toNat ≤ 1 := Bool.toNat_le c
  simp only [adc, BitVec.toNat_ofNat]
  by_cases h : 2 ^ 64 ≤ a.toNat + b.toNat + c.toNat
  · simp only [h, decide_true, Bool.toNat_true]; omega
  · simp only [h, decide_false, Bool.toNat_false]; omega

/-- Rule R103: the difference limb and the borrow are the exact difference. -/
theorem sbb_exact (a b : Limb) (c : Bool) :
    (sbb a b c).1.toNat + b.toNat + c.toNat = a.toNat + 2 ^ 64 * (sbb a b c).2.toNat := by
  have ha := a.isLt
  have hb := b.isLt
  have hc : c.toNat ≤ 1 := Bool.toNat_le c
  simp only [sbb, BitVec.toNat_ofInt]
  by_cases h : a.toNat < b.toNat + c.toNat
  · simp only [h, decide_true, Bool.toNat_true]; omega
  · simp only [h, decide_false, Bool.toNat_false]; omega

/-- Rule R104: the two halves are the exact product. -/
theorem mul64_exact (a b : Limb) : (mul64 a b).1.toNat + 2 ^ 64 * (mul64 a b).2.toNat = a.toNat * b.toNat := by
  have h : a.toNat * b.toNat < 2 ^ 64 * 2 ^ 64 :=
    Nat.mul_lt_mul'' a.isLt b.isLt
  simp only [mul64, BitVec.toNat_ofNat]
  rw [Nat.mod_eq_of_lt (a := _ / _) (Nat.div_lt_of_lt_mul h)]
  exact Nat.mod_add_div _ _

@[simp] theorem mul64Limbs_length (a b : Limb) : (mul64Limbs a b).length = 2 := rfl

theorem val_mul64Limbs (a b : Limb) : val (mul64Limbs a b) = a.toNat * b.toNat := by
  simp [mul64Limbs, ← mul64_exact a b]

/-! ## The chains -/

theorem addChain_length {a b : List Limb} (h : a.length = b.length) (c : Bool) :
    (addChain a b c).1.length = a.length := by
  induction a generalizing b c with
  | nil => rfl
  | cons x xs ih => cases b with
    | nil => simp at h
    | cons y ys => simp [addChain, ih (b := ys) (by simpa using h)]

/-- Rule R121 for the chain from any carry. -/
theorem addChain_val {a b : List Limb} (h : a.length = b.length) (c : Bool) :
    val (addChain a b c).1 + 2 ^ (64 * a.length) * (addChain a b c).2.toNat = val a + val b + c.toNat := by
  induction a generalizing b c with
  | nil => cases b with
    | nil => simp [addChain]
    | cons y ys => simp at h
  | cons x xs ih => cases b with
    | nil => simp at h
    | cons y ys =>
      have h1 := ih (b := ys) (by simpa using h) (adc x y c).2
      have h2 := adc_exact x y c
      simp only [addChain, val_cons, List.length_cons, pow_limbs_succ]
      rw [Nat.mul_assoc]
      omega

theorem addN_length {a b : List Limb} (h : a.length = b.length) : (addN a b).1.length = a.length :=
  addChain_length h false

/-- Rule R121. -/
theorem addN_val {a b : List Limb} (h : a.length = b.length) :
    val (addN a b).1 + 2 ^ (64 * a.length) * (addN a b).2.toNat = val a + val b := by
  simpa [addN] using addChain_val h false

theorem subChain_length {a b : List Limb} (h : a.length = b.length) (c : Bool) :
    (subChain a b c).1.length = a.length := by
  induction a generalizing b c with
  | nil => rfl
  | cons x xs ih => cases b with
    | nil => simp at h
    | cons y ys => simp [subChain, ih (b := ys) (by simpa using h)]

/-- Rule R123 for the chain from any borrow. -/
theorem subChain_val {a b : List Limb} (h : a.length = b.length) (c : Bool) :
    val (subChain a b c).1 + val b + c.toNat = val a + 2 ^ (64 * a.length) * (subChain a b c).2.toNat := by
  induction a generalizing b c with
  | nil => cases b with
    | nil => simp [subChain]
    | cons y ys => simp at h
  | cons x xs ih => cases b with
    | nil => simp at h
    | cons y ys =>
      have h1 := ih (b := ys) (by simpa using h) (sbb x y c).2
      have h2 := sbb_exact x y c
      simp only [subChain, val_cons, List.length_cons, pow_limbs_succ]
      rw [Nat.mul_assoc]
      omega

theorem subN_length {a b : List Limb} (h : a.length = b.length) : (subN a b).1.length = a.length :=
  subChain_length h false

/-- Rule R123. -/
theorem subN_val {a b : List Limb} (h : a.length = b.length) :
    val (subN a b).1 + val b = val a + 2 ^ (64 * a.length) * (subN a b).2.toNat := by
  simpa [subN] using subChain_val h false

/-- Without an underflow the difference is exact (rule R123). -/
theorem subN_val_of_le {a b : List Limb} (h : a.length = b.length) (hle : val b ≤ val a) :
    val (subN a b).1 = val a - val b := by
  have h1 := subN_val h
  have h2 := val_lt (subN a b).1
  rw [subN_length h] at h2
  cases hb : (subN a b).2 with
  | false => simp [hb] at h1; omega
  | true =>
    simp [hb] at h1
    omega

@[simp] theorem addInto_length (p d : List Limb) (c : Bool) : (addInto p d c).length = p.length := by
  induction p generalizing d c with
  | nil => simp [addInto]
  | cons x xs ih => cases d with
    | nil => cases c <;> simp [addInto, ih]
    | cons y ys => simp [addInto, ih]

theorem mod_carry_step (t q m x : Nat) (h : t + 2 ^ 64 * q = x) (ht : t < 2 ^ 64) :
    t + 2 ^ 64 * (q % m) = x % (2 ^ 64 * m) := by
  subst h
  rw [Nat.mod_mul]
  congr 1
  · omega
  · congr 2; omega

/-- The sum into `p`, modulo the length of `p` (a carry out of the top limb is lost). -/
theorem addInto_val (p d : List Limb) (c : Bool) :
    val (addInto p d c) = (val p + val d + c.toNat) % 2 ^ (64 * p.length) := by
  induction p generalizing d c with
  | nil => simp [addInto, Nat.mod_one]
  | cons x xs ih => cases d with
    | nil => cases c with
      | false =>
        have := val_lt (x :: xs)
        simp only [addInto, val_nil, Bool.toNat_false, Nat.add_zero]
        rw [Nat.mod_eq_of_lt this]
      | true =>
        have h2 := adc_exact x 0 true
        simp only [addInto, val_cons, List.length_cons, pow_limbs_succ, ih]
        refine mod_carry_step _ _ _ _ ?_ (adc x 0 true).1.isLt
        have h0 : (0 : Limb).toNat = 0 := rfl
        simp only [val_nil]
        omega
    | cons y ys =>
      have h2 := adc_exact x y c
      simp only [addInto, val_cons, List.length_cons, pow_limbs_succ, ih]
      refine mod_carry_step _ _ _ _ ?_ (adc x y c).1.isLt
      omega

@[simp] theorem addAt_length (p : List Limb) (k : Nat) (d : List Limb) : (addAt p k d).length = p.length := by
  induction k generalizing p with
  | zero => simp [addAt]
  | succ k ih => cases p <;> simp [addAt, ih]

/-- Entering `d` at limb `k` adds `val d · 2^(64k)`, modulo the length of `p`. -/
theorem addAt_val (p : List Limb) (k : Nat) (d : List Limb) :
    val (addAt p k d) = (val p + val d * 2 ^ (64 * k)) % 2 ^ (64 * p.length) := by
  induction k generalizing p with
  | zero => simp [addAt, addInto_val]
  | succ k ih => cases p with
    | nil => simp [addAt, Nat.mod_one]
    | cons x xs =>
      simp only [addAt, val_cons, List.length_cons, pow_limbs_succ, ih]
      refine mod_carry_step _ _ _ _ ?_ x.isLt
      ring

/-- With room for the sum, `addAt` is exact. -/
theorem addAt_val_of_lt {p : List Limb} {k : Nat} {d : List Limb}
    (h : val p + val d * 2 ^ (64 * k) < 2 ^ (64 * p.length)) : val (addAt p k d) = val p + val d * 2 ^ (64 * k) := by
  rw [addAt_val, Nat.mod_eq_of_lt h]

end Sys2Proof.Machine
end

