-- ==== Sys2Proof/Laws/Arith.lean ====
section
/-! SUPPORT. What each multi-limb operation computes, once, by value: rules R131, R133, R141, R143, R153, R155, R171, R182
for the model's functions. Later proofs cite these and unfold none of the datapaths. -/

namespace Sys2Proof.Machine

/-! ## Multiply by a scalar (R130, R131) -/

@[simp] theorem mulsChain_length (s : Limb) (a : List Limb) (c : Limb) : (mulsChain s a c).length = a.length + 1 := by
  induction a generalizing c with
  | nil => rfl
  | cons x xs ih => simp [mulsChain, ih]

theorem mulsChain_val (s : Limb) (a : List Limb) (c : Limb) : val (mulsChain s a c) = val a * s.toNat + c.toNat := by
  induction a generalizing c with
  | nil => simp [mulsChain]
  | cons x xs ih =>
    have hp := mul64_exact x s
    have ht := adc_exact (mul64 x s).1 c false
    have hx := x.isLt
    have hs := s.isLt
    have hc := c.isLt
    have hle : x.toNat * s.toNat ≤ (2 ^ 64 - 1) * (2 ^ 64 - 1) := Nat.mul_le_mul (by omega) (by omega)
    -- the running carry fits one limb (R105)
    have hfit : (mul64 x s).2.toNat + (adc (mul64 x s).1 c false).2.toNat < 2 ^ 64 := by
      simp only [Bool.toNat_false] at ht
      omega
    simp only [mulsChain, val_cons, ih, BitVec.toNat_ofNat, Nat.mod_eq_of_lt hfit]
    simp only [Bool.toNat_false] at ht
    have : (x.toNat + 2 ^ 64 * val xs) * s.toNat = x.toNat * s.toNat + 2 ^ 64 * (val xs * s.toNat) := by ring
    omega

theorem mulsN_length (a : List Limb) (s : Limb) : (mulsN a s).length = a.length + 1 := by simp [mulsN]

/-- Rule R131. -/
theorem mulsN_val (a : List Limb) (s : Limb) : val (mulsN a s) = val a * s.toNat := by
  simp [mulsN, mulsChain_val]

/-! ## Schoolbook (R132, R133) -/

@[simp] theorem mulwRow_length (ai : Limb) (i j : Nat) (b p : List Limb) : (mulwRow ai i j b p).length = p.length := by
  induction b generalizing j p with
  | nil => rfl
  | cons y ys ih => simp [mulwRow, ih]

theorem add_mod_mod (x y m : Nat) : (x % m + y) % m = (x + y) % m := by simp

theorem mulwRow_val (ai : Limb) (i j : Nat) (b p : List Limb) :
    val (mulwRow ai i j b p) % 2 ^ (64 * p.length) =
      (val p + ai.toNat * val b * 2 ^ (64 * (i + j))) % 2 ^ (64 * p.length) := by
  induction b generalizing j p with
  | nil => simp [mulwRow]
  | cons y ys ih =>
    have h := ih (j + 1) (addAt p (i + j) (mul64Limbs ai y))
    rw [addAt_length] at h
    rw [mulwRow, h, addAt_val, add_mod_mod, val_mul64Limbs, val_cons, ← Nat.add_assoc i j 1, pow_limbs_succ]
    congr 1
    ring

@[simp] theorem mulwRows_length (b : List Limb) (i : Nat) (a p : List Limb) : (mulwRows b i a p).length = p.length := by
  induction a generalizing i p with
  | nil => rfl
  | cons x xs ih => simp [mulwRows, ih]

theorem mulwRows_val (b : List Limb) (i : Nat) (a p : List Limb) :
    val (mulwRows b i a p) % 2 ^ (64 * p.length) =
      (val p + val a * val b * 2 ^ (64 * i)) % 2 ^ (64 * p.length) := by
  induction a generalizing i p with
  | nil => simp [mulwRows]
  | cons x xs ih =>
    have h := ih (i + 1) (mulwRow x i 0 b p)
    rw [mulwRow_length] at h
    rw [mulwRows, h, ← add_mod_mod, mulwRow_val, add_mod_mod, val_cons, pow_limbs_succ, Nat.add_zero]
    congr 1
    ring

theorem mulwN_length (a b : List Limb) : (mulwN a b).length = a.length + b.length := by simp [mulwN]

theorem val_mul_lt (a b : List Limb) : val a * val b < 2 ^ (64 * (a.length + b.length)) := by
  rw [Nat.mul_add, Nat.pow_add]
  exact Nat.mul_lt_mul'' (val_lt a) (val_lt b)

/-- Rule R133. -/
theorem mulwN_val (a b : List Limb) : val (mulwN a b) = val a * val b := by
  have h := mulwRows_val b 0 a (List.replicate (a.length + b.length) 0)
  have hlt := val_lt (mulwN a b)
  rw [mulwN_length] at hlt
  rw [List.length_replicate, val_replicate_zero] at h
  simp only [Nat.zero_add, Nat.mul_zero, Nat.pow_zero, Nat.mul_one] at h
  rwa [Nat.mod_eq_of_lt (val_mul_lt a b), ← mulwN, Nat.mod_eq_of_lt hlt] at h

/-! ## Karatsuba (R170 to R176) -/

/-- `mul` multiplies two sequences of `h` limbs exactly, into `2h` limbs. -/
def MultipliesExactly (h : Nat) (mul : List Limb → List Limb → List Limb) : Prop :=
  ∀ a b : List Limb, a.length = h → b.length = h → (mul a b).length = 2 * h ∧ val (mul a b) = val a * val b

theorem mul1_exact : MultipliesExactly 1 mul1 := by
  intro a b ha hb
  obtain ⟨x, rfl⟩ := List.length_eq_one_iff.mp ha
  obtain ⟨y, rfl⟩ := List.length_eq_one_iff.mp hb
  simp [mul1, val_mul64Limbs]

theorem pow_limbs_double (h : Nat) : 2 ^ (64 * (2 * h)) = 2 ^ (64 * h) * 2 ^ (64 * h) := by
  rw [show 64 * (2 * h) = 64 * h + 64 * h by ring, Nat.pow_add]

theorem val_split (h : Nat) (a : List Limb) (ha : a.length = 2 * h) :
    val a = val (a.take h) + 2 ^ (64 * h) * val (a.drop h) := by
  conv_lhs => rw [← List.take_append_drop h a]
  rw [val_append, List.length_take, ha, Nat.min_eq_left (by omega)]

/-- The algebra of rule R176: the truncated middle product plus the missing addends is the product of the true half-sums. -/
theorem middle_adjust (sa sb ca cb B : Nat) :
    sa * sb + ca * (sb * B) + cb * (sa * B) + ca * cb * (B * B) = (sa + B * ca) * (sb + B * cb) := by ring

/-- The bounds of rule R173: no partial sum of the adjust reaches `2^64` times the square of a half's range. -/
theorem adjust_bound {S T x y B : Nat} (hS : S < B) (hT : T < B) (hx : x ≤ 1) (hy : y ≤ 1) :
    S * T + x * (T * B) < 2 ^ 64 * (B * B) ∧ S * T + x * (T * B) + y * (S * B) < 2 ^ 64 * (B * B) ∧
      S * T + x * (T * B) + y * (S * B) + x * y * (B * B) < 2 ^ 64 * (B * B) := by
  have h1 : S * T ≤ B * B := Nat.mul_le_mul hS.le hT.le
  have h2 : x * (T * B) ≤ B * B := by
    calc x * (T * B) ≤ 1 * (B * B) := Nat.mul_le_mul hx (Nat.mul_le_mul_right B hT.le)
      _ = B * B := Nat.one_mul _
  have h3 : y * (S * B) ≤ B * B := by
    calc y * (S * B) ≤ 1 * (B * B) := Nat.mul_le_mul hy (Nat.mul_le_mul_right B hS.le)
      _ = B * B := Nat.one_mul _
  have h4 : x * y * (B * B) ≤ B * B := by
    calc x * y * (B * B) ≤ 1 * (B * B) := Nat.mul_le_mul_right _ (Nat.mul_le_mul hx hy)
      _ = B * B := Nat.one_mul _
  have h5 : 0 < B * B := Nat.mul_pos (by omega) (by omega)
  omega

theorem condAdd_length (c : Bool) (p : List Limb) (k : Nat) (d : List Limb) :
    (if c then addAt p k d else p).length = p.length := by cases c <;> simp

theorem condAdd_val {c : Bool} {p : List Limb} {k : Nat} {d : List Limb}
    (h : val p + c.toNat * (val d * 2 ^ (64 * k)) < 2 ^ (64 * p.length)) :
    val (if c then addAt p k d else p) = val p + c.toNat * (val d * 2 ^ (64 * k)) := by
  cases c with
  | false => simp
  | true =>
    simp only [Bool.toNat_true, Nat.one_mul] at h
    simp [addAt_val_of_lt h]

/-- The carry adjust of rules R172 and R174 over the truncated middle product `m` of `sa` and `sb`. -/
def carryAdjust (h : Nat) (m : List Limb) (sa sb : List Limb × Bool) : List Limb :=
  let m := if sa.2 then addAt m h sb.1 else m
  let m := if sb.2 then addAt m h sa.1 else m
  if sa.2 && sb.2 then addAt m (2 * h) [1] else m

theorem carryAdjust_length (h : Nat) (m : List Limb) (sa sb : List Limb × Bool) :
    (carryAdjust h m sa sb).length = m.length := by
  simp only [carryAdjust, condAdd_length]

/-- Rule R176: after the adjust the middle product is that of the true half-sums. -/
theorem carryAdjust_val {h : Nat} {m : List Limb} {sa sb : List Limb × Bool} (hml : m.length = 2 * h + 1)
    (hmv : val m = val sa.1 * val sb.1) (hsa : sa.1.length = h) (hsb : sb.1.length = h) :
    val (carryAdjust h m sa sb) =
      (val sa.1 + 2 ^ (64 * h) * sa.2.toNat) * (val sb.1 + 2 ^ (64 * h) * sb.2.toNat) := by
  have ha := val_lt sa.1
  have hb := val_lt sb.1
  rw [hsa] at ha
  rw [hsb] at hb
  have hca : sa.2.toNat ≤ 1 := Bool.toNat_le _
  have hcb : sb.2.toNat ≤ 1 := Bool.toNat_le _
  have hpow : 2 ^ (64 * (2 * h + 1)) = 2 ^ 64 * (2 ^ (64 * h) * 2 ^ (64 * h)) := by
    rw [pow_limbs_succ, pow_limbs_double]
  have hpow2 := pow_limbs_double h
  have hand : (sa.2 && sb.2).toNat = sa.2.toNat * sb.2.toNat := by cases sa.2 <;> cases sb.2 <;> rfl
  have e1 : val (if sa.2 then addAt m h sb.1 else m) =
      val sa.1 * val sb.1 + sa.2.toNat * (val sb.1 * 2 ^ (64 * h)) := by
    rw [condAdd_val] <;> rw [hmv]
    rw [hml, hpow]
    exact (adjust_bound ha hb hca hcb).1
  have e2 : val (if sb.2 then addAt (if sa.2 then addAt m h sb.1 else m) h sa.1
      else (if sa.2 then addAt m h sb.1 else m)) =
      val sa.1 * val sb.1 + sa.2.toNat * (val sb.1 * 2 ^ (64 * h)) + sb.2.toNat * (val sa.1 * 2 ^ (64 * h)) := by
    rw [condAdd_val] <;> rw [e1]
    rw [condAdd_length, hml, hpow]
    exact (adjust_bound ha hb hca hcb).2.1
  have hone : val [(1 : Limb)] = 1 := rfl
  simp only [carryAdjust]
  rw [condAdd_val] <;> rw [e2, hand, hone, hpow2, Nat.one_mul]
  · exact middle_adjust _ _ _ _ _
  · rw [condAdd_length, condAdd_length, hml, hpow]
    exact (adjust_bound ha hb hca hcb).2.2

/-- Rules R171, R176 for one level: an exact multiplier of halves gives an exact multiplier of wholes. -/
theorem karatsuba_exact {h : Nat} {mul : List Limb → List Limb → List Limb} (hm : MultipliesExactly h mul) :
    MultipliesExactly (2 * h) (karatsuba h mul) := by
  intro a b ha hb
  have haL : (a.take h).length = h := by simp [ha]; omega
  have haH : (a.drop h).length = h := by simp [ha]; omega
  have hbL : (b.take h).length = h := by simp [hb]; omega
  have hbH : (b.drop h).length = h := by simp [hb]; omega
  have hva := val_split h a ha
  have hvb := val_split h b hb
  have hk : karatsuba h mul a b =
      addAt (mul (a.take h) (b.take h) ++ mul (a.drop h) (b.drop h)) h
        (subN (subN (carryAdjust h (mul (addN (a.take h) (a.drop h)).1 (addN (b.take h) (b.drop h)).1 ++ [0])
          (addN (a.take h) (a.drop h)) (addN (b.take h) (b.drop h))) (mul (a.take h) (b.take h) ++ [0])).1
            (mul (a.drop h) (b.drop h) ++ [0])).1 := rfl
  have hfin : val a * val b < 2 ^ (64 * (2 * (2 * h))) := by
    have := val_mul_lt a b
    rwa [ha, hb, show 2 * h + 2 * h = 2 * (2 * h) by ring] at this
  rw [hk]
  clear hk
  rw [hva, hvb] at hfin ⊢
  clear hva hvb
  generalize a.take h = aL at *
  generalize a.drop h = aH at *
  generalize b.take h = bL at *
  generalize b.drop h = bH at *
  obtain ⟨hz0l, hz0⟩ := hm _ _ haL hbL
  obtain ⟨hz2l, hz2⟩ := hm _ _ haH hbH
  have hsal : (addN aL aH).1.length = h := by rw [addN_length (by omega), haL]
  have hsbl : (addN bL bH).1.length = h := by rw [addN_length (by omega), hbL]
  have hsa : val (addN aL aH).1 + 2 ^ (64 * h) * (addN aL aH).2.toNat = val aL + val aH := by
    rw [← haL]; exact addN_val (by omega)
  have hsb : val (addN bL bH).1 + 2 ^ (64 * h) * (addN bL bH).2.toNat = val bL + val bH := by
    rw [← hbL]; exact addN_val (by omega)
  obtain ⟨hml, hmv⟩ := hm _ _ hsal hsbl
  have hzero : ∀ z : List Limb, val (z ++ [0]) = val z := fun z => by rw [val_append]; simp
  have hm3 := carryAdjust_val (h := h) (m := mul (addN aL aH).1 (addN bL bH).1 ++ [0]) (sa := addN aL aH)
    (sb := addN bL bH) (by simp [hml]) (by rw [hzero, hmv]) hsal hsbl
  have hm3l := carryAdjust_length h (mul (addN aL aH).1 (addN bL bH).1 ++ [0]) (addN aL aH) (addN bL bH)
  rw [hsa, hsb] at hm3
  rw [List.length_append, hml, List.length_singleton] at hm3l
  generalize carryAdjust h (mul (addN aL aH).1 (addN bL bH).1 ++ [0]) (addN aL aH) (addN bL bH) = m3 at *
  have hexp : (val aL + val aH) * (val bL + val bH) =
      val aL * val bL + (val aL * val bH + val aH * val bL) + val aH * val bH := by ring
  have hl1 : m3.length = (mul aL bL ++ [0]).length := by simp [hz0l, hm3l]
  have h1 : val (subN m3 (mul aL bL ++ [0])).1 = (val aL * val bH + val aH * val bL) + val aH * val bH := by
    rw [subN_val_of_le hl1] <;> rw [hzero, hz0, hm3, hexp] <;> omega
  have h1l := subN_length hl1
  have hl2 : (subN m3 (mul aL bL ++ [0])).1.length = (mul aH bH ++ [0]).length := by rw [h1l, hm3l]; simp [hz2l]
  have h2 : val (subN (subN m3 (mul aL bL ++ [0])).1 (mul aH bH ++ [0])).1 = val aL * val bH + val aH * val bL := by
    rw [subN_val_of_le hl2] <;> rw [hzero, hz2, h1] <;> omega
  have hlen : (mul aL bL ++ mul aH bH).length = 2 * (2 * h) := by simp [hz0l, hz2l]; ring
  have hpow2 := pow_limbs_double h
  have hval : val (mul aL bL ++ mul aH bH) + (val aL * val bH + val aH * val bL) * 2 ^ (64 * h) =
      (val aL + 2 ^ (64 * h) * val aH) * (val bL + 2 ^ (64 * h) * val bH) := by
    rw [val_append, hz0, hz2, hz0l, hpow2]; ring
  refine ⟨by rw [addAt_length, hlen], ?_⟩
  rw [addAt_val_of_lt] <;> rw [h2, hval]
  rw [hlen]; exact hfin

/-- Rule R171 for `k2`. -/
theorem k2_exact : MultipliesExactly 2 k2 := karatsuba_exact mul1_exact

/-- Rule R171 for `k4`. -/
theorem k4_exact : MultipliesExactly 4 k4 := karatsuba_exact k2_exact

/-! ## Squaring (R180 to R182) -/

@[simp] theorem doubledProduct_length (x y : Limb) : (doubledProduct x y).length = 3 := rfl

theorem val_doubledProduct (x y : Limb) : val (doubledProduct x y) = 2 * (x.toNat * y.toNat) := by
  have hp := mul64_exact x y
  have h0 := adc_exact (mul64 x y).1 (mul64 x y).1 false
  have h1 := adc_exact (mul64 x y).2 (mul64 x y).2 (adc (mul64 x y).1 (mul64 x y).1 false).2
  have hc : (adc (mul64 x y).2 (mul64 x y).2 (adc (mul64 x y).1 (mul64 x y).1 false).2).2.toNat < 2 ^ 64 :=
    Nat.lt_of_le_of_lt (Bool.toNat_le _) (by decide)
  simp only [Bool.toNat_false] at h0
  simp only [doubledProduct, val_cons, val_nil, BitVec.toNat_ofNat, Nat.mod_eq_of_lt hc]
  omega

@[simp] theorem sqrRow_length (ai : Limb) (i j : Nat) (a p : List Limb) : (sqrRow ai i j a p).length = p.length := by
  induction a generalizing j p with
  | nil => rfl
  | cons y ys ih => simp [sqrRow, ih]

theorem sqrRow_val (ai : Limb) (i j : Nat) (a p : List Limb) :
    val (sqrRow ai i j a p) % 2 ^ (64 * p.length) =
      (val p + 2 * (ai.toNat * val a) * 2 ^ (64 * (i + j))) % 2 ^ (64 * p.length) := by
  induction a generalizing j p with
  | nil => simp [sqrRow]
  | cons y ys ih =>
    have h := ih (j + 1) (addAt p (i + j) (doubledProduct ai y))
    rw [addAt_length] at h
    rw [sqrRow, h, addAt_val, add_mod_mod, val_doubledProduct, val_cons, ← Nat.add_assoc i j 1, pow_limbs_succ]
    congr 1
    ring

@[simp] theorem sqrRows_length (i : Nat) (a p : List Limb) : (sqrRows i a p).length = p.length := by
  induction a generalizing i p with
  | nil => rfl
  | cons x xs ih => simp [sqrRows, ih]

theorem sqrRows_val (i : Nat) (a p : List Limb) :
    val (sqrRows i a p) % 2 ^ (64 * p.length) =
      (val p + val a ^ 2 * 2 ^ (64 * (2 * i))) % 2 ^ (64 * p.length) := by
  induction a generalizing i p with
  | nil => simp [sqrRows]
  | cons x xs ih =>
    have h := ih (i + 1) (sqrRow x i (i + 1) xs (addAt p (2 * i) (mul64Limbs x x)))
    rw [sqrRow_length, addAt_length] at h
    have h2 := sqrRow_val x i (i + 1) xs (addAt p (2 * i) (mul64Limbs x x))
    rw [addAt_length] at h2
    have h3 := addAt_val p (2 * i) (mul64Limbs x x)
    rw [val_mul64Limbs] at h3
    have hsq : (x.toNat + 2 ^ 64 * val xs) ^ 2 * 2 ^ (64 * (2 * i)) = x.toNat * x.toNat * 2 ^ (64 * (2 * i)) +
        (2 * (x.toNat * val xs) * 2 ^ (64 * (i + (i + 1))) + val xs ^ 2 * 2 ^ (64 * (2 * (i + 1)))) := by
      have e1 : 2 ^ (64 * (i + (i + 1))) = 2 ^ 64 * 2 ^ (64 * (2 * i)) := by
        rw [← pow_limbs_succ]; congr 1; ring
      have e2 : 2 ^ (64 * (2 * (i + 1))) = 2 ^ 64 * (2 ^ 64 * 2 ^ (64 * (2 * i))) := by
        rw [← pow_limbs_succ, ← pow_limbs_succ]; congr 1
      rw [e1, e2]
      ring
    rw [sqrRows, h, ← add_mod_mod, h2, h3, add_mod_mod, Nat.add_assoc, add_mod_mod, val_cons, hsq, Nat.add_assoc]

theorem sqrN_length (a : List Limb) : (sqrN a).length = 2 * a.length := by simp [sqrN]

/-- Rule R182. -/
theorem sqrN_val (a : List Limb) : val (sqrN a) = val a ^ 2 := by
  have h := sqrRows_val 0 a (List.replicate (2 * a.length) 0)
  have hlt := val_lt (sqrN a)
  have hsq := val_mul_lt a a
  rw [sqrN_length] at hlt
  rw [← Nat.two_mul] at hsq
  rw [List.length_replicate, val_replicate_zero] at h
  simp only [Nat.zero_add, Nat.mul_zero, Nat.pow_zero, Nat.mul_one] at h
  rwa [Nat.pow_two, Nat.mod_eq_of_lt hsq, ← Nat.pow_two, ← sqrN, Nat.mod_eq_of_lt hlt] at h

end Sys2Proof.Machine
end

