-- ==== Sys2Proof/Laws/Bytes.lean ====
section
/-! SUPPORT. The byte arrays and their values (rules R250 to R254). -/

namespace Sys2Proof.Machine

@[simp] theorem bytesLE_length (n v : Nat) : (bytesLE n v).length = n := by simp [bytesLE]
@[simp] theorem bytesBE_length (n v : Nat) : (bytesBE n v).length = n := by simp [bytesBE]

theorem bytesLE_succ (n v : Nat) : bytesLE (n + 1) v = BitVec.ofNat 8 v :: bytesLE n (v / 256) := by
  simp only [bytesLE, List.range_succ_eq_map, List.map_cons, List.map_map]
  congr 1
  · simp
  · apply List.map_congr_left
    intro k _
    simp only [Function.comp, Nat.succ_eq_add_one]
    rw [Nat.div_div_eq_div_mul, Nat.mul_succ, Nat.pow_add, Nat.mul_comm]

theorem sumLE_bytesLE (n v : Nat) : sumLE (bytesLE n v) = v % 2 ^ (8 * n) := by
  induction n generalizing v with
  | zero => simp [bytesLE, sumLE, Nat.mod_one]
  | succ n ih =>
    rw [bytesLE_succ, sumLE, ih, Nat.mul_succ, Nat.pow_add, Nat.mul_comm (2 ^ (8 * n)), Nat.mod_mul, BitVec.toNat_ofNat]

theorem bytesLE_sumLE (y : List Byte) : bytesLE y.length (sumLE y) = y := by
  induction y with
  | nil => rfl
  | cons b bs ih =>
    have hb := b.isLt
    rw [List.length_cons, bytesLE_succ, sumLE]
    have h1 : (b.toNat + 256 * sumLE bs) / 256 = sumLE bs := by omega
    have h2 : BitVec.ofNat 8 (b.toNat + 256 * sumLE bs) = b := by
      apply BitVec.eq_of_toNat_eq
      rw [BitVec.toNat_ofNat]
      omega
    rw [h1, h2, ih]

theorem sumLE_lt (y : List Byte) : sumLE y < 2 ^ (8 * y.length) := by
  have h := sumLE_bytesLE y.length (sumLE y)
  rw [bytesLE_sumLE] at h
  rw [h]
  exact Nat.mod_lt _ (Nat.two_pow_pos _)

/-- `TOBE` is `TOLE` "with the array reversed" (R251). -/
theorem bytesBE_eq_reverse (n v : Nat) : bytesBE n v = (bytesLE n v).reverse := by
  apply List.ext_getElem
  · simp
  · intro k h1 h2
    simp only [bytesBE_length] at h1
    simp [bytesBE, bytesLE]

theorem sumLE_append (x y : List Byte) : sumLE (x ++ y) = sumLE x + 2 ^ (8 * x.length) * sumLE y := by
  induction x with
  | nil => simp [sumLE]
  | cons b bs ih =>
    rw [List.cons_append, sumLE, ih, sumLE, List.length_cons, Nat.mul_succ, Nat.pow_add]
    ring

theorem sumBE_eq_reverse (y : List Byte) : sumBE y = sumLE y.reverse := by
  induction y with
  | nil => rfl
  | cons b bs ih =>
    rw [sumBE, ih, List.reverse_cons, sumLE_append, List.length_reverse]
    simp [sumLE]
    ring

theorem sumBE_bytesBE (n v : Nat) : sumBE (bytesBE n v) = v % 2 ^ (8 * n) := by
  rw [sumBE_eq_reverse, bytesBE_eq_reverse, List.reverse_reverse, sumLE_bytesLE]

theorem bytesBE_sumBE (y : List Byte) : bytesBE y.length (sumBE y) = y := by
  rw [bytesBE_eq_reverse, sumBE_eq_reverse, ← List.length_reverse, bytesLE_sumLE, List.reverse_reverse]

theorem sumBE_lt (y : List Byte) : sumBE y < 2 ^ (8 * y.length) := by
  rw [sumBE_eq_reverse, ← List.length_reverse]
  exact sumLE_lt _

end Sys2Proof.Machine
end

