-- ==== Sys2Proof/Laws/Compare.lean ====
section
/-! SUPPORT. Compare, count and predicates by value (rules R153, R155, R156, R157), and the mask bits (R215). -/

namespace Sys2Proof.Machine

/-- Rule R153. -/
theorem cmpN_val {a b : List Limb} (h : a.length = b.length) : cmpN a b = compare (val a) (val b) := by
  induction a generalizing b with
  | nil => cases b with
    | nil => rfl
    | cons y ys => simp at h
  | cons x xs ih => cases b with
    | nil => simp at h
    | cons y ys =>
      have hx := x.isLt
      have hy := y.isLt
      rw [cmpN, ih (by simpa using h), val_cons, val_cons]
      rcases Nat.lt_trichotomy (val xs) (val ys) with hlt | heq | hgt
      · rw [Nat.compare_eq_lt.mpr hlt, Nat.compare_eq_lt.mpr (by omega)]
      · rw [Nat.compare_eq_eq.mpr heq]
        dsimp only
        split
        · rw [Nat.compare_eq_lt.mpr (by omega)]
        · split
          · rw [Nat.compare_eq_gt.mpr (by omega)]
          · rw [Nat.compare_eq_eq.mpr (by omega)]
      · rw [Nat.compare_eq_gt.mpr hgt, Nat.compare_eq_gt.mpr (by omega)]

theorem cmpN_eq_iff {a b : List Limb} (h : a.length = b.length) : cmpN a b = .eq ↔ val a = val b := by
  rw [cmpN_val h, Nat.compare_eq_eq]

theorem cmpN_lt_iff {a b : List Limb} (h : a.length = b.length) : cmpN a b = .lt ↔ val a < val b := by
  rw [cmpN_val h, Nat.compare_eq_lt]

theorem cmpN_gt_iff {a b : List Limb} (h : a.length = b.length) : cmpN a b = .gt ↔ val b < val a := by
  rw [cmpN_val h, Nat.compare_eq_gt]

/-- The bits below a nonzero top limb do not change its bit length. -/
theorem bitlen_top {x v n : Nat} (hx : x ≠ 0) (hv : v < 2 ^ n) : bitlen (v + 2 ^ n * x) = n + bitlen x := by
  have hpos : 0 < 2 ^ n * x := Nat.mul_pos (Nat.two_pow_pos n) (by omega)
  have hne : v + 2 ^ n * x ≠ 0 := by omega
  have hlog : (v + 2 ^ n * x).log2 = n + x.log2 := by
    rw [Nat.log2_eq_iff hne]
    have h1 := Nat.log2_self_le hx
    have h2 := Nat.lt_log2_self (n := x)
    constructor
    · rw [Nat.pow_add]
      exact (Nat.mul_le_mul_left _ h1).trans (Nat.le_add_left _ _)
    · rw [Nat.add_assoc, Nat.pow_add]
      calc v + 2 ^ n * x < 2 ^ n * 1 + 2 ^ n * x := by omega
        _ = 2 ^ n * (1 + x) := by ring
        _ ≤ 2 ^ n * 2 ^ (x.log2 + 1) := Nat.mul_le_mul_left _ (by omega)
  simp only [bitlen, if_neg hne, if_neg hx, hlog]
  omega

/-- Rule R11: `clz64` is 64 minus the bit length. -/
theorem clz64_add_bitlen (v : Limb) : clz64 v + bitlen v.toNat = 64 := by
  unfold clz64 bitlen
  by_cases h : v = 0
  · subst h; rfl
  · have hne : v.toNat ≠ 0 := fun h0 => h (BitVec.eq_of_toNat_eq (by simpa using h0))
    have : v.toNat.log2 < 64 := (Nat.log2_lt hne).mpr v.isLt
    simp only [if_neg h, if_neg hne]
    omega

theorem clzScan_add_bitlen (l : List Limb) : clzScan l + bitlen (val l.reverse) = 64 * l.length := by
  induction l with
  | nil => rfl
  | cons x xs ih =>
    rw [clzScan, List.reverse_cons, val_append, List.length_reverse, List.length_cons, val_cons, val_nil,
      Nat.mul_zero, Nat.add_zero]
    by_cases h : x = 0
    · subst h
      simp only [if_true, show (0 : Limb).toNat = 0 from rfl, Nat.mul_zero, Nat.add_zero]
      omega
    · have hne : x.toNat ≠ 0 := fun h0 => h (BitVec.eq_of_toNat_eq (by simpa using h0))
      have hlt := val_lt xs.reverse
      rw [List.length_reverse] at hlt
      have := clz64_add_bitlen x
      rw [if_neg h, bitlen_top hne hlt]
      omega

/-- Rule R155. -/
theorem clzN_add_bitlen (a : List Limb) : clzN a + bitlen (val a) = 64 * a.length := by
  have := clzScan_add_bitlen a.reverse
  rwa [List.reverse_reverse, List.length_reverse] at this

theorem or_eq_zero (x y : Limb) : x ||| y = 0 ↔ x = 0 ∧ y = 0 := by
  constructor
  · intro h
    have hn : x.toNat ||| y.toNat = 0 := by rw [← BitVec.toNat_or, h]; rfl
    rw [Nat.or_eq_zero_iff] at hn
    exact ⟨BitVec.eq_of_toNat_eq hn.1, BitVec.eq_of_toNat_eq hn.2⟩
  · rintro ⟨rfl, rfl⟩; rfl

/-- Rule R156: the OR-reduction is 0 exactly for the value 0. -/
theorem orAll_eq_zero (a : List Limb) : orAll a = 0 ↔ val a = 0 := by
  induction a with
  | nil => simp [orAll]
  | cons x xs ih =>
    rw [orAll, or_eq_zero, ih, val_cons]
    constructor
    · rintro ⟨rfl, h⟩; rw [h]; rfl
    · intro h
      exact ⟨BitVec.eq_of_toNat_eq (by show x.toNat = 0; omega), by omega⟩

theorem mask_bits (b0 b1 b2 b3 b4 b5 b6 b7 : Bool) :
    let m := BitVec.ofNat 8 (b0.toNat + 2 * b1.toNat + 4 * b2.toNat + 8 * b3.toNat + 16 * b4.toNat + 32 * b5.toNat
      + 64 * b6.toNat + 128 * b7.toNat)
    m.getLsbD 0 = b0 ∧ m.getLsbD 1 = b1 ∧ m.getLsbD 2 = b2 ∧ m.getLsbD 3 = b3 ∧ m.getLsbD 4 = b4 ∧
      m.getLsbD 5 = b5 ∧ m.getLsbD 6 = b6 ∧ m.getLsbD 7 = b7 := by
  revert b0 b1 b2 b3 b4 b5 b6 b7
  decide

/-- Bit i of a mask is the bit of lane i (R215). -/
theorem maskOf_bit (f : Fin 8 → Bool) (i : Fin 8) : (maskOf f).getLsbD i.val = f i := by
  obtain ⟨h0, h1, h2, h3, h4, h5, h6, h7⟩ := mask_bits (f 0) (f 1) (f 2) (f 3) (f 4) (f 5) (f 6) (f 7)
  fin_cases i
  · exact h0
  · exact h1
  · exact h2
  · exact h3
  · exact h4
  · exact h5
  · exact h6
  · exact h7

end Sys2Proof.Machine
end

