-- ==== Sys2Proof/Laws/Decode.lean ====
section
/-! SUPPORT. The fields of a packed word and the small lemmas of the field codes (rules R60, R63, R64). -/

namespace Sys2Proof

/-- The sum of rule R72 never leaves 16 bits. -/
theorem pack_toNat (imm : Count) (w : BitVec 2) (fb : BitVec 1) (op : BitVec 7) :
    (pack imm w fb op).toNat = imm.toNat * 1024 + w.toNat * 256 + fb.toNat * 128 + op.toNat := by
  have h1 := imm.isLt
  have h2 := w.isLt
  have h3 := fb.isLt
  have h4 := op.isLt
  rw [pack, BitVec.toNat_ofNat, Nat.mod_eq_of_lt (by omega)]

@[simp] theorem opField_pack (imm : Count) (w : BitVec 2) (fb : BitVec 1) (op : BitVec 7) :
    opField (pack imm w fb op) = op := by
  have h4 := op.isLt
  apply BitVec.eq_of_toNat_eq
  rw [opField, BitVec.extractLsb'_toNat, pack_toNat, Nat.shiftRight_zero]
  omega

@[simp] theorem fbField_pack (imm : Count) (w : BitVec 2) (fb : BitVec 1) (op : BitVec 7) :
    fbField (pack imm w fb op) = fb := by
  have h3 := fb.isLt
  have h4 := op.isLt
  apply BitVec.eq_of_toNat_eq
  rw [fbField, BitVec.extractLsb'_toNat, pack_toNat, Nat.shiftRight_eq_div_pow]
  omega

@[simp] theorem wField_pack (imm : Count) (w : BitVec 2) (fb : BitVec 1) (op : BitVec 7) :
    wField (pack imm w fb op) = w := by
  have h2 := w.isLt
  have h3 := fb.isLt
  have h4 := op.isLt
  apply BitVec.eq_of_toNat_eq
  rw [wField, BitVec.extractLsb'_toNat, pack_toNat, Nat.shiftRight_eq_div_pow]
  omega

@[simp] theorem immField_pack (imm : Count) (w : BitVec 2) (fb : BitVec 1) (op : BitVec 7) :
    immField (pack imm w fb op) = imm := by
  have h1 := imm.isLt
  have h2 := w.isLt
  have h3 := fb.isLt
  have h4 := op.isLt
  apply BitVec.eq_of_toNat_eq
  rw [immField, BitVec.extractLsb'_toNat, pack_toNat, Nat.shiftRight_eq_div_pow]
  omega

/-- A word is the packing of its fields: no bit of `CMD` lies outside them (R60). -/
theorem pack_fields (cmd : CmdWord) : pack (immField cmd) (wField cmd) (fbField cmd) (opField cmd) = cmd := by
  have h := cmd.isLt
  apply BitVec.eq_of_toNat_eq
  rw [pack_toNat]
  simp only [immField, wField, fbField, opField, BitVec.extractLsb'_toNat, Nat.shiftRight_eq_div_pow]
  omega

@[simp] theorem Width.ofCode_code (w : Width) : Width.ofCode w.code = w := by cases w <;> rfl
@[simp] theorem Width.code_ofCode (c : BitVec 2) : (Width.ofCode c).code = c := by revert c; decide
@[simp] theorem Path.ofBit_bit (p : Path) : Path.ofBit p.bit = p := by cases p <;> rfl
@[simp] theorem Path.bit_ofBit (b : BitVec 1) : (Path.ofBit b).bit = b := by revert b; decide

/-- `N_of(W) = 2^(W+1)` (R64). -/
theorem Width.limbs_eq (w : Width) : w.limbs = 2 ^ (w.code.toNat + 1) := by cases w <;> rfl

/-- The widths of the operands and of a doubled result fit the ports (R7). -/
theorem Width.limbs_le (w : Width) : w.limbs ≤ 16 := by cases w <;> decide
theorem Width.limbs_pos (w : Width) : 0 < w.limbs := by cases w <;> decide

end Sys2Proof
end

