-- ==== Sys2Proof/Laws/Operands.lean ====
section
/-! SUPPORT. The operand forms: their lengths and their limbs (rules R24, R26). -/

namespace Sys2Proof.Machine

@[simp] theorem wideA_length (x : Inputs) (w : Width) : (x.wideA w).length = w.limbs := by
  have := w.limbs_le
  simp only [Inputs.wideA, List.length_take, Vector.length_toList]
  omega

@[simp] theorem wideB_length (x : Inputs) (w : Width) : (x.wideB w).length = w.limbs := by
  have := w.limbs_le
  simp only [Inputs.wideB, List.length_take, Vector.length_toList]
  omega

@[simp] theorem bytes_length (x : Inputs) (w : Width) : (x.bytes w).length = 8 * w.limbs := by
  have := w.limbs_le
  simp only [Inputs.bytes, List.length_take, Vector.length_toList]
  omega

/-- Limb i of the operand is limb i of the port. -/
theorem wideA_getElem? (x : Inputs) (w : Width) (i : Fin 16) (h : i.val < w.limbs) : (x.wideA w)[i.val]? = some x.a[i] := by
  simp [Inputs.wideA, h]

theorem wideB_getElem? (x : Inputs) (w : Width) (i : Fin 16) (h : i.val < w.limbs) : (x.wideB w)[i.val]? = some x.b[i] := by
  simp [Inputs.wideB, h]

end Sys2Proof.Machine
end

