-- ==== Sys2Proof/Laws/PerInstr.lean ====
section
/-! SUPPORT. Per instruction: the word of a well-formed instruction selects the row of its mnemonic in the opcode map,
`(w & mask) = match` (rule R61). -/

namespace Sys2Proof.Laws.TableRow

/-- `encode i` matches the row of `i`'s mnemonic. -/
def Statement (i : Instr) : Prop :=
  i.WellFormed → ∃ r ∈ opcodeTable, r.mnemonic = i.mnemonic ∧ encode i &&& r.format.mask = r.matchWord

theorem adc : Statement (.adc) := fun _ =>
  ⟨⟨"ADC", 0x01, .p⟩, by decide, rfl, rfl⟩
theorem sbb : Statement (.sbb) := fun _ =>
  ⟨⟨"SBB", 0x02, .p⟩, by decide, rfl, rfl⟩
theorem mul64 : Statement (.mul64) := fun _ =>
  ⟨⟨"MUL64", 0x03, .p⟩, by decide, rfl, rfl⟩
theorem sqr64 : Statement (.sqr64) := fun _ =>
  ⟨⟨"SQR64", 0x04, .p⟩, by decide, rfl, rfl⟩
theorem add (w : Width) : Statement (.add w) := fun _ =>
  ⟨⟨"ADD", 0x10, .w⟩, by decide, rfl, by cases w <;> rfl⟩
theorem sub (w : Width) : Statement (.sub w) := fun _ =>
  ⟨⟨"SUB", 0x11, .w⟩, by decide, rfl, by cases w <;> rfl⟩
theorem muls (w : Width) : Statement (.muls w) := fun _ =>
  ⟨⟨"MULS", 0x12, .w⟩, by decide, rfl, by cases w <;> rfl⟩
theorem mulw (w : Width) : Statement (.mulw w) := fun _ =>
  ⟨⟨"MULW", 0x13, .w⟩, by decide, rfl, by cases w <;> rfl⟩
theorem shl (w : Width) (n : Count) : Statement (.shl w n) := fun _ =>
  ⟨⟨"SHL", 0x14, .wi⟩, by decide, rfl, by revert n; cases w <;> decide⟩
theorem shr (w : Width) (n : Count) : Statement (.shr w n) := fun _ =>
  ⟨⟨"SHR", 0x15, .wi⟩, by decide, rfl, by revert n; cases w <;> decide⟩
theorem eq (w : Width) : Statement (.eq w) := fun _ =>
  ⟨⟨"EQ", 0x16, .w⟩, by decide, rfl, by cases w <;> rfl⟩
theorem lt (w : Width) : Statement (.lt w) := fun _ =>
  ⟨⟨"LT", 0x17, .w⟩, by decide, rfl, by cases w <;> rfl⟩
theorem gt (w : Width) : Statement (.gt w) := fun _ =>
  ⟨⟨"GT", 0x18, .w⟩, by decide, rfl, by cases w <;> rfl⟩
theorem clz (w : Width) : Statement (.clz w) := fun _ =>
  ⟨⟨"CLZ", 0x19, .w⟩, by decide, rfl, by cases w <;> rfl⟩
theorem iszero (w : Width) : Statement (.iszero w) := fun _ =>
  ⟨⟨"ISZERO", 0x1A, .w⟩, by decide, rfl, by cases w <;> rfl⟩
theorem iseven (w : Width) : Statement (.iseven w) := fun _ =>
  ⟨⟨"ISEVEN", 0x1B, .w⟩, by decide, rfl, by cases w <;> rfl⟩
theorem mulk (w : Width) : Statement (.mulk w) := fun h =>
  ⟨⟨"MULK", 0x20, .wk⟩, by decide, rfl, by cases w <;> first | rfl | cases h⟩
theorem sqr (w : Width) : Statement (.sqr w) := fun _ =>
  ⟨⟨"SQR", 0x21, .w⟩, by decide, rfl, by cases w <;> rfl⟩
theorem vxor (p : Path) : Statement (.vxor p) := fun _ =>
  ⟨⟨"VXOR", 0x30, .v⟩, by decide, rfl, by cases p <;> rfl⟩
theorem vand (p : Path) : Statement (.vand p) := fun _ =>
  ⟨⟨"VAND", 0x31, .v⟩, by decide, rfl, by cases p <;> rfl⟩
theorem vor (p : Path) : Statement (.vor p) := fun _ =>
  ⟨⟨"VOR", 0x32, .v⟩, by decide, rfl, by cases p <;> rfl⟩
theorem vadd (p : Path) : Statement (.vadd p) := fun _ =>
  ⟨⟨"VADD", 0x33, .v⟩, by decide, rfl, by cases p <;> rfl⟩
theorem vsub (p : Path) : Statement (.vsub p) := fun _ =>
  ⟨⟨"VSUB", 0x34, .v⟩, by decide, rfl, by cases p <;> rfl⟩
theorem vshli (p : Path) (n : Count) : Statement (.vshli p n) := fun _ =>
  ⟨⟨"VSHLI", 0x35, .vi⟩, by decide, rfl, by revert n; cases p <;> decide⟩
theorem vshri (p : Path) (n : Count) : Statement (.vshri p n) := fun _ =>
  ⟨⟨"VSHRI", 0x36, .vi⟩, by decide, rfl, by revert n; cases p <;> decide⟩
theorem vshlv (p : Path) : Statement (.vshlv p) := fun _ =>
  ⟨⟨"VSHLV", 0x37, .v⟩, by decide, rfl, by cases p <;> rfl⟩
theorem vshrv (p : Path) : Statement (.vshrv p) := fun _ =>
  ⟨⟨"VSHRV", 0x38, .v⟩, by decide, rfl, by cases p <;> rfl⟩
theorem veq (p : Path) : Statement (.veq p) := fun _ =>
  ⟨⟨"VEQ", 0x39, .v⟩, by decide, rfl, by cases p <;> rfl⟩
theorem vltm (p : Path) : Statement (.vltm p) := fun _ =>
  ⟨⟨"VLTM", 0x3A, .v⟩, by decide, rfl, by cases p <;> rfl⟩
theorem vgtm (p : Path) : Statement (.vgtm p) := fun _ =>
  ⟨⟨"VGTM", 0x3B, .v⟩, by decide, rfl, by cases p <;> rfl⟩
theorem vmin (p : Path) : Statement (.vmin p) := fun _ =>
  ⟨⟨"VMIN", 0x3C, .v⟩, by decide, rfl, by cases p <;> rfl⟩
theorem vmax (p : Path) : Statement (.vmax p) := fun _ =>
  ⟨⟨"VMAX", 0x3D, .v⟩, by decide, rfl, by cases p <;> rfl⟩
theorem vblend (p : Path) : Statement (.vblend p) := fun _ =>
  ⟨⟨"VBLEND", 0x3E, .v⟩, by decide, rfl, by cases p <;> rfl⟩
theorem vperm (p : Path) : Statement (.vperm p) := fun _ =>
  ⟨⟨"VPERM", 0x3F, .v⟩, by decide, rfl, by cases p <;> rfl⟩
theorem vsplat (p : Path) : Statement (.vsplat p) := fun _ =>
  ⟨⟨"VSPLAT", 0x40, .v⟩, by decide, rfl, by cases p <;> rfl⟩
theorem vzero (p : Path) : Statement (.vzero p) := fun _ =>
  ⟨⟨"VZERO", 0x41, .v⟩, by decide, rfl, by cases p <;> rfl⟩
theorem tobe (w : Width) : Statement (.tobe w) := fun _ =>
  ⟨⟨"TOBE", 0x50, .w⟩, by decide, rfl, by cases w <;> rfl⟩
theorem tole (w : Width) : Statement (.tole w) := fun _ =>
  ⟨⟨"TOLE", 0x51, .w⟩, by decide, rfl, by cases w <;> rfl⟩
theorem frombe (w : Width) : Statement (.frombe w) := fun _ =>
  ⟨⟨"FROMBE", 0x52, .w⟩, by decide, rfl, by cases w <;> rfl⟩
theorem fromle (w : Width) : Statement (.fromle w) := fun _ =>
  ⟨⟨"FROMLE", 0x53, .w⟩, by decide, rfl, by cases w <;> rfl⟩
theorem vcapq : Statement (.vcapq) := fun _ =>
  ⟨⟨"VCAPQ", 0x60, .p⟩, by decide, rfl, rfl⟩

end Sys2Proof.Laws.TableRow
end

