-- ==== Sys2Proof/Laws/Shift.lean ====
section
/-! SUPPORT. The shifts by value (rules R141, R143). -/

namespace Sys2Proof.Machine

/-- One limb of a left shift: what stays of the limb, above what comes in from the lower neighbour. -/
theorem shl_limb (a lower : Limb) {k : Nat} (hk' : k < 64) :
    ((a <<< k) ||| (lower >>> (64 - k))).toNat = a.toNat % 2 ^ (64 - k) * 2 ^ k + lower.toNat / 2 ^ (64 - k) := by
  have hlow : lower.toNat / 2 ^ (64 - k) < 2 ^ k := by
    apply Nat.div_lt_of_lt_mul
    rw [← Nat.pow_add, Nat.sub_add_cancel hk'.le]
    exact lower.isLt
  have hsh : a.toNat <<< k % 2 ^ 64 = (a.toNat % 2 ^ (64 - k)) <<< k := by
    rw [Nat.shiftLeft_eq, Nat.shiftLeft_eq, ← Nat.mul_mod_mul_right, ← Nat.pow_add, Nat.sub_add_cancel hk'.le]
  rw [BitVec.toNat_or, BitVec.toNat_shiftLeft, BitVec.toNat_ushiftRight, hsh, Nat.shiftRight_eq_div_pow,
    ← Nat.shiftLeft_add_eq_or_of_lt hlow, Nat.shiftLeft_eq]

/-- One limb of a right shift. -/
theorem shr_limb (a upper : Limb) {k : Nat} (hk : 0 < k) (hk' : k < 64) :
    ((a >>> k) ||| (upper <<< (64 - k))).toNat = a.toNat / 2 ^ k + upper.toNat % 2 ^ k * 2 ^ (64 - k) := by
  have h := shl_limb upper a (k := 64 - k) (by omega)
  rw [Nat.sub_sub_self hk'.le] at h
  rw [BitVec.or_comm, h, Nat.add_comm]

@[simp] theorem shlChain_length (k : Nat) (lower : Limb) (a : List Limb) : (shlChain k lower a).length = a.length := by
  induction a generalizing lower with
  | nil => rfl
  | cons x xs ih => simp [shlChain, ih]

theorem shlN_length (a : List Limb) (k : Nat) : (shlN a k).length = a.length := by
  unfold shlN; split <;> simp

theorem shlChain_val {k : Nat} (hk' : k < 64) (lower : Limb) (a : List Limb) :
    val (shlChain k lower a) = (val a * 2 ^ k + lower.toNat / 2 ^ (64 - k)) % 2 ^ (64 * a.length) := by
  induction a generalizing lower with
  | nil => simp [shlChain, Nat.mod_one]
  | cons x xs ih =>
    have hx : x.toNat * 2 ^ k = x.toNat % 2 ^ (64 - k) * 2 ^ k + 2 ^ 64 * (x.toNat / 2 ^ (64 - k)) := by
      have h1 : 2 ^ 64 = 2 ^ (64 - k) * 2 ^ k := by rw [← Nat.pow_add, Nat.sub_add_cancel hk'.le]
      have h2 := Nat.mod_add_div x.toNat (2 ^ (64 - k))
      calc x.toNat * 2 ^ k = (x.toNat % 2 ^ (64 - k) + 2 ^ (64 - k) * (x.toNat / 2 ^ (64 - k))) * 2 ^ k := by rw [h2]
        _ = _ := by rw [h1]; ring
    simp only [shlChain, val_cons, List.length_cons, pow_limbs_succ, ih]
    refine mod_carry_step _ _ _ _ ?_ (BitVec.isLt _)
    rw [shl_limb _ _ hk', Nat.add_mul, hx]
    ring

/-- Rule R141. -/
theorem shlN_val (a : List Limb) {k : Nat} (hk : k < 64) : val (shlN a k) = val a * 2 ^ k % 2 ^ (64 * a.length) := by
  unfold shlN
  split
  · next h => simp [h, Nat.mod_eq_of_lt (val_lt a)]
  · rw [shlChain_val hk]
    simp

@[simp] theorem shrChain_length (k : Nat) (a : List Limb) : (shrChain k a).length = a.length := by
  induction a with
  | nil => rfl
  | cons x xs ih => simp [shrChain, ih]

theorem shrN_length (a : List Limb) (k : Nat) : (shrN a k).length = a.length := by
  unfold shrN; split <;> simp

theorem headD_mod (a : List Limb) {k : Nat} (hk : k ≤ 64) : (a.headD 0).toNat % 2 ^ k = val a % 2 ^ k := by
  cases a with
  | nil => rfl
  | cons x xs =>
    have h : 2 ^ 64 * val xs = 2 ^ k * (2 ^ (64 - k) * val xs) := by
      rw [← Nat.mul_assoc, ← Nat.pow_add, Nat.add_sub_cancel' hk]
    rw [val_cons, h, Nat.add_mul_mod_self_left]
    rfl

theorem shrChain_val {k : Nat} (hk : 0 < k) (hk' : k < 64) (a : List Limb) : val (shrChain k a) = val a / 2 ^ k := by
  induction a with
  | nil => simp [shrChain]
  | cons x xs ih =>
    have h1 : 2 ^ 64 = 2 ^ k * 2 ^ (64 - k) := by rw [← Nat.pow_add, Nat.add_sub_cancel' hk'.le]
    have h2 := Nat.mod_add_div (val xs) (2 ^ k)
    have hdiv : (x.toNat + 2 ^ 64 * val xs) / 2 ^ k = x.toNat / 2 ^ k + 2 ^ (64 - k) * val xs := by
      rw [h1, Nat.mul_assoc, Nat.add_mul_div_left _ _ (Nat.two_pow_pos k)]
    have hsplit : 2 ^ (64 - k) * val xs =
        val xs % 2 ^ k * 2 ^ (64 - k) + 2 ^ 64 * (val xs / 2 ^ k) := by
      calc 2 ^ (64 - k) * val xs = 2 ^ (64 - k) * (val xs % 2 ^ k + 2 ^ k * (val xs / 2 ^ k)) := by rw [h2]
        _ = _ := by rw [h1]; ring
    simp only [shrChain, val_cons, ih]
    rw [shr_limb _ _ hk hk', headD_mod xs hk'.le, hdiv, hsplit]
    ring

/-- Rule R143. -/
theorem shrN_val (a : List Limb) {k : Nat} (hk : k < 64) : val (shrN a k) = val a / 2 ^ k := by
  unfold shrN
  split
  · next h => simp [h]
  · next h => exact shrChain_val (by omega) hk a

end Sys2Proof.Machine
end

