-- ==== Sys2Proof/Laws/State.lean ====
section
/-! SUPPORT. One lemma per field per update of the state, each true by `rfl`, so that no later proof unfolds a record
update; and what the answers name. -/

namespace Sys2Proof.Machine

@[simp] theorem State.answer_cfg (s : State) (o : Outputs) : (s.answer o).cfg = s.cfg := rfl
@[simp] theorem State.answer_inp (s : State) (o : Outputs) : (s.answer o).inp = s.inp := rfl
@[simp] theorem State.answer_out (s : State) (o : Outputs) : (s.answer o).out = o := rfl
@[simp] theorem State.answer_caller (s : State) (o : Outputs) : (s.answer o).caller = s.caller := rfl
@[simp] theorem State.answer_answer (s : State) (o o' : Outputs) : (s.answer o).answer o' = s.answer o' := rfl

@[simp] theorem State.present_cfg (s : State) (t : Inputs) : (s.present t).cfg = s.cfg := rfl
@[simp] theorem State.present_inp (s : State) (t : Inputs) : (s.present t).inp = t := rfl
@[simp] theorem State.present_out (s : State) (t : Inputs) : (s.present t).out = s.out := rfl
@[simp] theorem State.present_caller (s : State) (t : Inputs) : (s.present t).caller = s.caller := rfl

@[simp] theorem State.handOver_cfg (s : State) : s.handOver.cfg = s.cfg := rfl
@[simp] theorem State.handOver_inp (s : State) : s.handOver.inp = s.caller.todo.headD s.inp := rfl
@[simp] theorem State.handOver_out (s : State) : s.handOver.out = s.out := rfl
@[simp] theorem State.handOver_todo (s : State) : s.handOver.caller.todo = s.caller.todo.tail := rfl
@[simp] theorem State.handOver_answers (s : State) : s.handOver.caller.answers = s.caller.answers ++ [s.out] := rfl

@[simp] theorem State.withFetchWord_cfg (s : State) (n w : Nat) : (s.withFetchWord n w).cfg = s.cfg := rfl
@[simp] theorem State.withFetchWord_cmd (s : State) (n w : Nat) : (s.withFetchWord n w).inp.cmd = tableCmd n w := rfl
@[simp] theorem State.withFetchWord_out (s : State) (n w : Nat) : (s.withFetchWord n w).out = s.out := rfl
@[simp] theorem State.withFetchWord_caller (s : State) (n w : Nat) : (s.withFetchWord n w).caller = s.caller := rfl

@[simp] theorem State.resetWith_cfg (c : Config) : (State.resetWith c).cfg = c := rfl
@[simp] theorem State.resetWith_inp (c : Config) : (State.resetWith c).inp = Inputs.zero := rfl
@[simp] theorem State.resetWith_out (c : Config) : (State.resetWith c).out = Outputs.undriven := rfl
@[simp] theorem State.resetWith_caller (c : Config) : (State.resetWith c).caller = ⟨[], []⟩ := rfl

/-! ## What each form of answer drives -/

theorem Outputs.limbs_eq (r : List Limb) : Outputs.limbs r = ⟨r, none, none, none, none, []⟩ := rfl
theorem Outputs.limbsCarry_eq (r : List Limb) (c : Bool) : Outputs.limbsCarry r c = ⟨r, some c, none, none, none, []⟩ := rfl
theorem Outputs.bool_eq (b : Bool) : Outputs.bool b = ⟨[], none, some b, none, none, []⟩ := rfl
theorem Outputs.mask_eq (m : LaneMask) : Outputs.mask m = ⟨[], none, none, some m, none, []⟩ := rfl
theorem Outputs.count_eq (n : Nat) : Outputs.count n = ⟨[], none, none, none, some (BitVec.ofNat 32 n), []⟩ := rfl
theorem Outputs.bytes_eq (y : List Byte) : Outputs.bytes y = ⟨[], none, none, none, none, y⟩ := rfl

/-! ## The two ways an instruction ends -/

theorem answered_eq (o : Outputs) (s : State) : answered o s = .next { s with out := o } := rfl

theorem guarded_next {p : Path} {s : State} (h : Path.definedOn p s.cfg = true) (o : Outputs) :
    guarded p o s = .next { s with out := o } := by
  simp [guarded, h, answered_eq]

theorem guarded_refused {p : Path} {s : State} (h : Path.definedOn p s.cfg = false) (o : Outputs) :
    guarded p o s = .refused .vectorWithoutCapability := by
  simp [guarded, h, refuse]

/-- A path is defined on every instance but for the vector path without the capability (R201). -/
theorem Path.definedOn_iff (p : Path) (c : Config) : Path.definedOn p c = true ↔ (p = .vector → c.vcap = true) := by
  cases p <;> simp [Path.definedOn]

end Sys2Proof.Machine
end

