-- ==== Sys2Proof/Laws/Step.lean ====
section
/-! SUPPORT. Everything the shared operations and a step can do, said once: later proofs cite these and unfold neither. -/

namespace Sys2Proof.Machine

/-- All that `answered` does. -/
theorem answered_cases {o : Outputs} {s t : State} (h : answered o s = .next t) : t = s.answer o := by
  cases h; rfl

/-- All that `guarded` does when it answers: the path is defined, and only the outputs change. -/
theorem guarded_cases {p : Path} {o : Outputs} {s t : State} (h : guarded p o s = .next t) :
    Path.definedOn p s.cfg = true ∧ t = s.answer o := by
  unfold guarded at h
  split at h
  · next hp => exact ⟨hp, answered_cases h⟩
  · cases h

/-- The two ways `guarded` ends; it never faults. -/
theorem guarded_ends (p : Path) (o : Outputs) (s : State) :
    (Path.definedOn p s.cfg = true ∧ guarded p o s = .next (s.answer o)) ∨
      (Path.definedOn p s.cfg = false ∧ guarded p o s = .refused .vectorWithoutCapability) := by
  cases h : Path.definedOn p s.cfg with
  | true => exact .inl ⟨rfl, guarded_next h o⟩
  | false => exact .inr ⟨rfl, guarded_refused h o⟩

/-- All that a step that answers does: the word is a command, the command answers, the host takes the answer and moves on. -/
theorem step_cases {s t : State} (h : step s = .next t) :
    ∃ i u, decode s.inp.cmd = .ok i ∧ exec i s = .next u ∧ t = u.handOver := by
  unfold step at h
  split at h
  · cases h
  · next i hi =>
    split at h
    · next u hu => cases h; exact ⟨i, u, hi, hu, rfl⟩
    · cases h
    · cases h

/-- A step on a command is its `exec`, then the host's move. -/
theorem step_of_exec {s u : State} {i : Instr} (hd : decode s.inp.cmd = .ok i) (he : exec i s = .next u) :
    step s = .next u.handOver := by
  simp [step, hd, he]

/-- A refused command refuses the step. -/
theorem step_of_exec_refused {s : State} {i : Instr} {r : Refusal} (hd : decode s.inp.cmd = .ok i)
    (he : exec i s = .refused r) : step s = .refused r := by
  simp [step, hd, he]

/-- A reserved word is refused whatever else holds (R274). -/
theorem step_of_reserved {s : State} {e : Reserved} (hd : decode s.inp.cmd = .error e) :
    step s = .refused .reservedCommand := by
  simp [step, hd, refuse]

end Sys2Proof.Machine
end

