-- ==== Sys2Proof/Laws/Vector.lean ====
section
/-! SUPPORT. The shared operations of the vector kernel: what a vector result holds lane by lane, and the lane shifts by value
(rules R200, R203, R210, R215). -/

namespace Sys2Proof.Machine

@[simp] theorem lanes_length (f : Fin 8 → Limb) : (lanes f).r.length = 8 := rfl

/-- Lane i of a vector result. -/
theorem lanes_getElem? (f : Fin 8 → Limb) (i : Fin 8) : (lanes f).r[i.val]? = some (f i) := by fin_cases i <;> rfl

theorem lanes_getD (f : Fin 8 → Limb) (i : Fin 8) : (lanes f).r.getD i.val 0 = f i := by fin_cases i <;> rfl

/-- A guarded vector result, on a path that is defined: it answers, drives 8 limbs and nothing else, lane by lane. -/
theorem guarded_lanes {p : Path} {s : State} (h : Path.definedOn p s.cfg = true) (f : Fin 8 → Limb) :
    ∃ r : List Limb, guarded p (lanes f) s = .next { s with out := { Outputs.undriven with r := r } } ∧ r.length = 8 ∧
      (∀ i : Fin 8, r[i.val]? = some (f i)) ∧ ∀ i : Fin 8, r.getD i.val 0 = f i :=
  ⟨(lanes f).r, guarded_next h _, rfl, lanes_getElem? f, lanes_getD f⟩

/-- The exact formula of rule R210, at every count. -/
theorem laneShl_toNat (v : Limb) (c : Nat) : (laneShl v c).toNat = v.toNat * 2 ^ c % 2 ^ 64 := by
  unfold laneShl
  split
  · next h =>
    obtain ⟨d, rfl⟩ := Nat.exists_eq_add_of_le h
    rw [Nat.pow_add, ← Nat.mul_assoc, Nat.mul_right_comm, Nat.mul_mod_left]
    rfl
  · simp [BitVec.toNat_shiftLeft, Nat.shiftLeft_eq]

theorem laneShr_toNat (v : Limb) (c : Nat) : (laneShr v c).toNat = v.toNat / 2 ^ c := by
  unfold laneShr
  split
  · next h => exact (Nat.div_eq_of_lt (Nat.lt_of_lt_of_le v.isLt (Nat.pow_le_pow_right (by decide) h))).symm
  · simp [Nat.shiftRight_eq_div_pow]

end Sys2Proof.Machine
end

