-- ==== Sys2Proof/Tests/Slice0.lean ====
section
/-! SUPPORT. The model's own tests. Expected results are those of `95_test_vectors.md` (its row ids stand in the comments)
and words written out from `30_encoding.md`; nothing here is a statement for the provers. The last part shows, for every
statement with hypotheses, a concrete state and operands that meet them. -/

namespace Sys2Proof.Tests

open Sys2Proof.Machine

set_option maxRecDepth 20000
set_option exponentiation.threshold 1100

/-! ## Small helpers -/

/-- An operand port with its first eight limbs given, zero above. -/
def port (x0 x1 : Limb) (x2 x3 x4 x5 x6 x7 : Limb := 0) : Vector Limb 16 :=
  #v[x0, x1, x2, x3, x4, x5, x6, x7, 0, 0, 0, 0, 0, 0, 0, 0]

/-- The greatest limb, `MAX` of `95_test_vectors.md`. -/
abbrev M : Limb := 0xFFFFFFFFFFFFFFFF

/-- Only bit 63. -/
abbrev T : Limb := 0x8000000000000000

/-- `X4` and `Y4` of `95_test_vectors.md`. -/
def x4 : Vector Limb 16 := port 0x0123456789ABCDEF 0xFEDCBA9876543210 0x0F1E2D3C4B5A6978 0x8796A5B4C3D2E1F0
def y4 : Vector Limb 16 := port 0xDEADBEEFCAFEBABE 0x1234567890ABCDEF M 0x7FFFFFFFFFFFFFFF

/-- `VA` and `VB` of `95_test_vectors.md` section 2.7. -/
def va : Vector Limb 16 := port 1 5 3 T 0 7 7 0
def vb : Vector Limb 16 := port 2 5 1 0x7FFFFFFFFFFFFFFF M 8 6 0

/-- Inputs with two operands. -/
def two (a b : Vector Limb 16) : Inputs := { Inputs.zero with a := a, b := b }

/-- Inputs with one operand; the other one is not zero, so that a read of it would show. -/
def one (a : Vector Limb 16) : Inputs := { Inputs.zero with a := a, b := Vector.replicate 16 M }

/-- The state in which the host presents `x` to an instance with the given constant. -/
def given (v : Bool) (x : Inputs) : State := (State.resetWith ⟨v⟩).present x

/-- The answer of one step on a command word. -/
def answerOf (v : Bool) (cmd : CmdWord) (x : Inputs) : Option Outputs :=
  match step (given v { x with cmd := cmd }) with
  | .next t => some t.out
  | .fault _ => none
  | .refused _ => none

/-- The refusal of one step on a command word. -/
def refusalOf (v : Bool) (cmd : CmdWord) (x : Inputs) : Option Refusal :=
  match step (given v { x with cmd := cmd }) with
  | .next _ => none
  | .fault _ => none
  | .refused r => some r

/-- The decoder's answer, the reason of a refusal left out. -/
def read (w : CmdWord) : Option Instr := (decode w).toOption

/-! ## WellFormed: the one check, with terms it refuses (R64) -/

theorem test_mulk_of_8_limbs_is_ill_formed : (Instr.mulk .w8).wellFormed = false := by decide
theorem test_mulk_of_16_limbs_is_ill_formed : (Instr.mulk .w16).wellFormed = false := by decide
theorem test_mulk_of_4_limbs_is_well_formed : (Instr.mulk .w4).wellFormed = true := by decide

/-! ## Decoding: every constructor by a word written out from R60 to R66 (IMM, W, FB, OP from the top) -/

theorem test_decode_scalar :
    read 0b000000_00_0_0000001 = some .adc ∧ read 0b000000_00_0_0000010 = some .sbb ∧
    read 0b000000_00_0_0000011 = some .mul64 ∧ read 0b000000_00_0_0000100 = some .sqr64 := by decide

theorem test_decode_fixed_width :
    read 0b000000_10_0_0010000 = some (.add .w8) ∧ read 0b000000_01_0_0010001 = some (.sub .w4) ∧
    read 0b000000_00_0_0010010 = some (.muls .w2) ∧ read 0b000000_11_0_0010011 = some (.mulw .w16) ∧
    read 0b000001_10_0_0010100 = some (.shl .w8 1) ∧ read 0b111111_01_0_0010101 = some (.shr .w4 63) ∧
    read 0b000000_11_0_0010110 = some (.eq .w16) ∧ read 0b000000_01_0_0010111 = some (.lt .w4) ∧
    read 0b000000_00_0_0011000 = some (.gt .w2) ∧ read 0b000000_10_0_0011001 = some (.clz .w8) ∧
    read 0b000000_01_0_0011010 = some (.iszero .w4) ∧ read 0b000000_10_0_0011011 = some (.iseven .w8) := by decide

theorem test_decode_karatsuba :
    read 0b000000_00_0_0100000 = some (.mulk .w2) ∧ read 0b000000_01_0_0100000 = some (.mulk .w4) ∧
    read 0b000000_11_0_0100001 = some (.sqr .w16) := by decide

theorem test_decode_vector_bitwise_and_sums :
    read 0b000000_00_0_0110000 = some (.vxor .vector) ∧ read 0b000000_00_1_0110001 = some (.vand .fallback) ∧
    read 0b000000_00_0_0110010 = some (.vor .vector) ∧ read 0b000000_00_1_0110011 = some (.vadd .fallback) ∧
    read 0b000000_00_0_0110100 = some (.vsub .vector) := by decide

theorem test_decode_vector_shifts :
    read 0b111111_00_0_0110101 = some (.vshli .vector 63) ∧ read 0b000111_00_1_0110110 = some (.vshri .fallback 7) ∧
    read 0b000000_00_0_0110111 = some (.vshlv .vector) ∧ read 0b000000_00_1_0111000 = some (.vshrv .fallback) := by
  decide

theorem test_decode_vector_compares :
    read 0b000000_00_0_0111001 = some (.veq .vector) ∧ read 0b000000_00_1_0111010 = some (.vltm .fallback) ∧
    read 0b000000_00_0_0111011 = some (.vgtm .vector) ∧ read 0b000000_00_1_0111100 = some (.vmin .fallback) ∧
    read 0b000000_00_0_0111101 = some (.vmax .vector) := by decide

theorem test_decode_vector_moves :
    read 0b000000_00_1_0111110 = some (.vblend .fallback) ∧ read 0b000000_00_0_0111111 = some (.vperm .vector) ∧
    read 0b000000_00_1_1000000 = some (.vsplat .fallback) ∧ read 0b000000_00_0_1000001 = some (.vzero .vector) := by
  decide

theorem test_decode_bytes_and_query :
    read 0b000000_11_0_1010000 = some (.tobe .w16) ∧ read 0b000000_00_0_1010001 = some (.tole .w2) ∧
    read 0b000000_10_0_1010010 = some (.frombe .w8) ∧ read 0b000000_01_0_1010011 = some (.fromle .w4) ∧
    read 0b000000_00_0_1100000 = some .vcapq := by decide

/-- Section 2.9: no such `OP`. -/
theorem test_reserved_op :
    read 0x0000 = none ∧ read 0x0005 = none ∧ read 0x000F = none ∧ read 0x001C = none ∧ read 0x0022 = none ∧
    read 0x0042 = none ∧ read 0x0054 = none ∧ read 0x0061 = none ∧ read 0x007F = none := by decide

/-- Section 2.9: a must-be-zero field, and `MULK` at 8 and 16 limbs. -/
theorem test_reserved_field :
    read 0x0101 = none ∧ read 0x0081 = none ∧ read 0x0401 = none ∧ read 0x0090 = none ∧ read 0x0410 = none ∧
    read 0x0094 = none ∧ read 0x0220 = none ∧ read 0x0320 = none ∧ read 0x00A0 = none ∧ read 0x0133 = none ∧
    read 0x0433 = none ∧ read 0x0135 = none ∧ read 0x0160 = none ∧ read 0x00E0 = none := by decide

/-- R72, the other way: words of the table from their commands. -/
theorem test_encode :
    encode (.shr .w4 63) = 0xFD15 ∧ encode (.vshri .fallback 7) = 0x1CB6 ∧ encode (.mulw .w16) = 0x0313 ∧
    encode (.mulk .w4) = 0x0120 ∧ encode (.vadd .fallback) = 0x00B3 ∧ encode .vcapq = 0x0060 := by decide

/-- R70: the written form. -/
theorem test_written_form :
    (Instr.add .w8).written = "ADD.8" ∧ (Instr.shl .w8 1).written = "SHL.8 #1" ∧
    (Instr.vadd .fallback).written = "VADD.FB" ∧ (Instr.vshri .fallback 7).written = "VSHRI.FB #7" ∧
    Instr.adc.written = "ADC" := by decide

/-- Rows of spec/opcode_table.json through `decodeTableWord`. -/
theorem test_table_word :
    decodeTableWord 16 0x0010 = some (.add .w2) ∧ decodeTableWord 16 0xFC35 = some (.vshli .vector 63) ∧
    decodeTableWord 16 0x0220 = none := by decide

/-! ## Scalar primitives -/

theorem test_adc_wide_carry : -- D-A-4
    answerOf false 0x0001 { two (port M 0) (port M 0) with cin := true } = some (.limbsCarry [M] true) := by decide
theorem test_adc_carry_in_alone : -- D-A-8
    answerOf false 0x0001 { two (port 0x0123456789ABCDEF 0) (port 0xFEDCBA9876543210 0) with cin := true } =
      some (.limbsCarry [0] true) := by decide
theorem test_sbb_subtrahend_of_2_to_64 : -- D-B-4
    answerOf false 0x0002 { two (port 0 0) (port M 0) with cin := true } = some (.limbsCarry [0] true) := by decide
theorem test_sbb_borrow : -- D-B-9
    answerOf false 0x0002 { two (port 0x0123456789ABCDEF 0) (port 0xFEDCBA9876543210 0) with cin := true } =
      some (.limbsCarry [0x02468ACF13579BDE] true) := by decide
theorem test_mul64_greatest : -- D-M-3
    answerOf false 0x0003 (two (port M 0) (port M 0)) = some (.limbs [1, 0xFFFFFFFFFFFFFFFE]) := by decide
theorem test_mul64_halves : -- D-M-7
    answerOf false 0x0003 (two (port 0x0123456789ABCDEF 0) (port 0xFEDCBA9876543210 0)) =
      some (.limbs [0x2236D88FE5618CF0, 0x0121FA00AD77D742]) := by decide
theorem test_sqr64 : -- D-S-7
    answerOf false 0x0004 (one (port 0xDEADBEEFCAFEBABE 0)) =
      some (.limbs [0xB295B2EEF140A504, 0xC1B1CD138292FA18]) := by decide

/-! ## Fixed-width add, subtract, multiply, shift -/

theorem test_add_chains : -- D-AS-5
    answerOf false 0x0110 (two x4 y4) =
      some (.limbsCarry [0xDFD1045754AA88AD, 0x1111111106FFFFFF, 0x0F1E2D3C4B5A6978, 0x0796A5B4C3D2E1F0] true) := by
  decide
theorem test_add_source_example : -- S1
    answerOf false 0x0210 (two (port 1 0) (port M 0)) = some (.limbsCarry [0, 1, 0, 0, 0, 0, 0, 0] false) := by decide
theorem test_sub_chains : -- D-AS-14
    answerOf false 0x0111 (two y4 x4) =
      some (.limbsCarry [0xDD8A79884152ECCF, 0x13579BE01A579BDF, 0xF0E1D2C3B4A59686, 0xF8695A4B3C2D1E0F] true) := by
  decide
theorem test_sub_borrow_ripples : -- D-AS-16
    answerOf false 0x0211 (two (port 1 0) (port M 0)) = some (.limbsCarry [2, M, M, M, M, M, M, M] true) := by decide
theorem test_muls_greatest : -- D-MS-1
    answerOf false 0x0012 { one (port M M) with s := M } = some (.limbs [1, M, 0xFFFFFFFFFFFFFFFE]) := by decide
theorem test_muls_carries_a_limb : -- D-MS-4
    answerOf false 0x0112 { one x4 with s := 0xDEADBEEFCAFEBABE } =
      some (.limbs [0x7EB689F4EA447D62, 0xA39912FA396F67FD, 0x42036685CF1791AF, 0x53FA80E9849F3991, 0x75F0A9A18D1DDBAB]) := by
  decide
theorem test_mulw_greatest : -- D-MW-2
    answerOf false 0x0013 (two (port M M) (port M M)) = some (.limbs [1, 0, 0xFFFFFFFFFFFFFFFE, M]) := by decide
theorem test_mulw_dense : -- D-MW-4
    answerOf false 0x0013 (two (port 0x0123456789ABCDEF 0xFEDCBA9876543210) (port 0x0F1E2D3C4B5A6978 0x8796A5B4C3D2E1F0)) =
      some (.limbs [0x563502BF6B058F08, 0xB42DB85400BE8D6E, 0x6EA0E4389E149C33, 0x86FC60B3F6274755]) := by decide
theorem test_shl_63 : -- D-SH-7
    answerOf false 0xFD14 (one x4) =
      some (.limbs [0x8000000000000000, 0x0091A2B3C4D5E6F7, 0x7F6E5D4C3B2A1908, 0x078F169E25AD34BC]) := by decide
theorem test_shl_loses_the_top : -- D-SH-3
    answerOf false 0x0414 (one (port 0 T)) = some (.limbs [0, 0]) := by decide
theorem test_shr_63 : -- D-SH-14
    answerOf false 0xFD15 (one x4) = some (.limbs [0xFDB97530ECA86420, 0x1E3C5A7896B4D2F1, 0x0F2D4B6987A5C3E0, 1]) := by
  decide
theorem test_shr_crosses_limbs : -- D-SH-15
    answerOf false 0x1015 (one (port 0x10 0xF)) = some (.limbs [0xF000000000000001, 0]) := by decide

/-! ## Compare, count, predicates -/

theorem test_eq_source_order : -- D-C-1, D-C-2
    answerOf false 0x0016 (two (port 5 7) (port 5 7)) = some (.bool true) ∧
    answerOf false 0x0016 (two (port M 0) (port 0 1)) = some (.bool false) := by decide
theorem test_lt_top_limb_decides : -- D-C-2, D-C-4
    answerOf false 0x0017 (two (port M 0) (port 0 1)) = some (.bool true) ∧
    answerOf false 0x0017 (two (port 0 T) (port 0 0x7FFFFFFFFFFFFFFF)) = some (.bool false) := by decide
theorem test_gt_is_unsigned : -- D-C-4, D-C-1
    answerOf false 0x0018 (two (port 0 T) (port 0 0x7FFFFFFFFFFFFFFF)) = some (.bool true) ∧
    answerOf false 0x0018 (two (port 5 7) (port 5 7)) = some (.bool false) := by decide
theorem test_clz_zero : -- D-Z-5
    answerOf false 0x0219 (one (port 0 0)) = some (.count 512) := by decide
theorem test_clz_middle_limb : -- D-Z-7
    answerOf false 0x0219 (one (port 0 0 0 0xF0)) = some (.count 312) := by decide
theorem test_iszero : -- D-T-1, D-T-2
    answerOf false 0x011A (one (port 0 0)) = some (.bool true) ∧
    answerOf false 0x011A (one (port 0 0 0 T)) = some (.bool false) := by decide
theorem test_iseven : -- D-T-5, D-T-6
    answerOf false 0x021B (one (port 3 0)) = some (.bool false) ∧
    answerOf false 0x001B (one (port 0xFFFFFFFFFFFFFFFE M)) = some (.bool true) := by decide

/-! ## Karatsuba and squaring -/

theorem test_mulk_one_half_sum_overflows : -- D-K-3
    answerOf false 0x0020 (two (port 0x8000000000000000 0x8000000000000001) (port 3 5)) =
      some (.limbs [0x8000000000000000, 4, 0x8000000000000009, 2]) := by decide
theorem test_mulk_both_half_sums_overflow : -- D-K-2
    answerOf false 0x0020 (two (port M M) (port M M)) = some (.limbs [1, 0, 0xFFFFFFFFFFFFFFFE, M]) := by decide
theorem test_sqr_2 : -- D-Q-1
    answerOf false 0x0021 (one (port M 1)) = some (.limbs [1, 0xFFFFFFFFFFFFFFFC, 3, 0]) := by decide
theorem test_sqr_4 : -- D-Q-4
    answerOf false 0x0121 (one x4) =
      some (.limbs [0xDCA5E20890F2A521, 0x446EFC86A6F7108C, 0x8D9A6657D5450D94, 0x6616313FCA5975A9, 0xD705826BDFFCE0A8,
        0x30667987AF0DC1E8, 0xC2DBAA0FEF29A139, 0x47D03B6B41A0697D]) := by decide

/-! ## The vector kernel: the fallback on an instance without the capability, the vector path on one with it -/

theorem test_vxor : -- D-V-1
    answerOf true 0x0030 (two va vb) = some (.limbs [3, 0, 2, M, M, 0xF, 1, 0]) := by decide
theorem test_vand : -- D-V-2
    answerOf false 0x00B1 (two va vb) = some (.limbs [0, 5, 1, 0, 0, 0, 6, 0]) := by decide
theorem test_vor : -- D-V-3
    answerOf true 0x0032 (two va vb) = some (.limbs [3, 5, 3, M, M, 0xF, 7, 0]) := by decide
theorem test_vadd_has_no_carry_between_lanes : -- D-V-5
    answerOf true 0x0033 (two (port 1 0) (port M 0)) = some (.limbs [0, 0, 0, 0, 0, 0, 0, 0]) := by decide
theorem test_vadd : -- D-V-4
    answerOf false 0x00B3 (two va vb) = some (.limbs [3, 0xA, 4, M, M, 0xF, 0xD, 0]) := by decide
theorem test_vsub : -- D-V-6
    answerOf false 0x00B4 (two va vb) = some (.limbs [M, 0, 2, 1, 1, M, 1, 0]) := by decide
theorem test_vshli : -- D-V-7
    answerOf true 0x1035 (one (port 1 0xF000000000000000 3 0)) = some (.limbs [0x10, 0, 0x30, 0, 0, 0, 0, 0]) := by decide
theorem test_vshri : -- D-V-9
    answerOf false 0x10B6 (one (port 0x10 T 0xF 0)) = some (.limbs [1, 0x0800000000000000, 0, 0, 0, 0, 0, 0]) := by decide
theorem test_vshlv : -- D-V-11
    answerOf true 0x0037 (two (port 1 1 1 1 1 1 1 1) (port 0 1 2 63 64 65 0x100000000 M)) =
      some (.limbs [1, 2, 4, T, 0, 0, 0, 0]) := by decide
theorem test_vshrv : -- D-V-12
    answerOf false 0x00B8 (two (port T T T T T T T T) (port 0 1 2 63 64 65 0x100000000 M)) =
      some (.limbs [T, 0x4000000000000000, 0x2000000000000000, 1, 0, 0, 0, 0]) := by decide
theorem test_veq : -- D-V-13, D-V-14
    answerOf true 0x0039 (two (port 1 2 3 4 5 6 7 8) (port 1 2 3 4 5 6 7 9)) = some (.bool false) ∧
    answerOf true 0x0039 (two va va) = some (.bool true) := by decide
theorem test_vltm : -- D-V-15
    answerOf false 0x00BA (two va vb) = some (.mask 0x31) := by decide
theorem test_vgtm : -- D-V-16
    answerOf true 0x003B (two va vb) = some (.mask 0x4C) := by decide
theorem test_vmin : -- D-V-17
    answerOf false 0x00BC (two va vb) = some (.limbs [1, 5, 1, 0x7FFFFFFFFFFFFFFF, 0, 7, 6, 0]) := by decide
theorem test_vmax : -- D-V-18
    answerOf true 0x003D (two va vb) = some (.limbs [2, 5, 3, T, M, 8, 7, 0]) := by decide
theorem test_vblend : -- D-V-19
    answerOf false 0x00BE { two (port 0 1 2 3 4 5 6 7) (port 10 11 12 13 14 15 16 17) with k := 0x81 } =
      some (.limbs [10, 1, 2, 3, 4, 5, 6, 17]) := by decide
theorem test_vperm : -- D-V-21
    answerOf true 0x003F (two (port 10 11 12 13 14 15 16 17) (port 7 0 0 9 2 M 4 3)) =
      some (.limbs [17, 10, 10, 11, 12, 17, 14, 13]) := by decide
theorem test_vsplat : -- D-V-23
    answerOf false 0x00C0 { one va with s := 0xAB } =
      some (.limbs [0xAB, 0xAB, 0xAB, 0xAB, 0xAB, 0xAB, 0xAB, 0xAB]) := by decide
theorem test_vzero : -- D-V-24
    answerOf true 0x0041 (one va) = some (.limbs [0, 0, 0, 0, 0, 0, 0, 0]) := by decide

/-! ## Byte interop and the query -/

/-- The operand of D-Y-1 and D-Y-2. -/
def y1 : Vector Limb 16 := port 0x0807060504030201 0x100F0E0D0C0B0A09

theorem test_tobe : -- D-Y-1
    answerOf false 0x0050 (one y1) = some (.bytes [0x10, 0x0F, 0x0E, 0x0D, 0x0C, 0x0B, 0x0A, 9, 8, 7, 6, 5, 4, 3, 2, 1]) := by
  decide
theorem test_tole : -- D-Y-2
    answerOf false 0x0051 (one y1) = some (.bytes [1, 2, 3, 4, 5, 6, 7, 8, 9, 0x0A, 0x0B, 0x0C, 0x0D, 0x0E, 0x0F, 0x10]) := by
  decide
theorem test_frombe : -- D-Y-7
    answerOf false 0x0252 { one va with bi := (Vector.replicate 128 0).set 0 0x80 } =
      some (.limbs [0, 0, 0, 0, 0, 0, 0, T]) := by decide
theorem test_fromle : -- D-Y-8
    answerOf false 0x0253 { one va with bi := (Vector.replicate 128 0).set 0 0x80 } =
      some (.limbs [0x80, 0, 0, 0, 0, 0, 0, 0]) := by decide
theorem test_vcapq : -- D-Y-9, D-Y-10
    answerOf true 0x0060 (one va) = some (.bool true) ∧ answerOf false 0x0060 (one va) = some (.bool false) := by decide

/-! ## Refusals and the host's move -/

/-- Run C of program 4: `FB = 0` on an instance without the capability. -/
theorem test_vector_path_without_capability :
    refusalOf false 0x003A (two va vb) = some .vectorWithoutCapability := by decide

/-- R274: a reserved word that looks like a vector command is refused as reserved, whatever `VCAP` is. -/
theorem test_reserved_before_capability :
    refusalOf false 0x0133 (two va vb) = some .reservedCommand ∧ refusalOf true 0x0133 (two va vb) = some .reservedCommand := by
  decide

/-- Program 1, its first two transactions in one run: the host holds both answers. -/
theorem test_run_of_two :
    (match Host.Core.run core 2
        { given false { two (port M M) (port 1 0) with cmd := 0x0010 } with
          caller := ⟨[{ two (port 0 0) (port 1 0) with cmd := 0x0011 }], []⟩ } with
      | .next t => some t.caller.answers
      | .fault _ => none
      | .refused _ => none) = some [.limbsCarry [0, 0] true, .limbsCarry [M, M] true] := by decide

/-! ## Witnesses: for every statement with hypotheses, a concrete state and operands that meet them

The name says the statement. Where a statement has several clauses, each clause has a witness, at a boundary value of its
range. -/

/-- Two transactions that `ADD.2` and `SUB.2` answer. -/
def addInputs : Inputs := { two (port M M) (port 1 0) with cmd := 0x0010 }
def subInputs : Inputs := { two (port 0 0) (port 1 0) with cmd := 0x0011 }
/-- A reserved word, and `VLTM` on the vector path. -/
def reservedInputs : Inputs := { two va vb with cmd := 0x0133 }
def vectorInputs : Inputs := { two va vb with cmd := 0x003A }

/-- `ValAndLimbsAreWeightedSums`: the last limb of a sequence. -/
theorem witness_last_limb : (1 : Nat) < 2 ∧ (limbsOf 2 (2 ^ 64 + 5))[1]? = some 1 := by decide

/-- `OperandFormsAreThePortsNamedParts`: the last limb of each width, the last byte. -/
theorem witness_last_positions :
    (1 : Fin 16).val < Width.w2.limbs ∧ (15 : Fin 16).val < Width.w16.limbs ∧ (127 : Fin 128).val < 8 * Width.w16.limbs := by
  decide

/-- `DecodeAcceptsExactlyTheEncodings`: each side of the equivalence, and a term that has no word. -/
theorem witness_encoding :
    decode 0x0120 = .ok (.mulk .w4) ∧ (Instr.mulk .w4).WellFormed ∧ encode (.mulk .w4) = 0x0120 ∧
    ¬(Instr.mulk .w8).WellFormed := by
  refine ⟨rfl, rfl, rfl, by decide⟩

/-- `MaskAndMatchSelectTheOperation`: a row of the table, a word that it selects and one that it does not. -/
theorem witness_row :
    (⟨"MULK", 0x20, .wk⟩ : OpcodeRow) ∈ opcodeTable ∧ (0x0120 : CmdWord) &&& Format.wk.mask = 0x0020 ∧
    (0x0220 : CmdWord) &&& Format.wk.mask ≠ 0x0020 := by decide

/-- `StepRunsTheDecodedCommand`: a word that decodes, and a well-formed command with the greatest count. -/
theorem witness_decoded :
    decode (given false addInputs).inp.cmd = .ok (.add .w2) ∧ (Instr.shr .w16 63).WellFormed := ⟨rfl, rfl⟩

/-- `StepRefusesExactlyTheBreaches`, its three clauses; the third on each path. -/
theorem witness_breaches :
    decode (given true reservedInputs).inp.cmd = .error .fieldNotZero ∧
    (decode (given false vectorInputs).inp.cmd = .ok (.vltm .vector) ∧ (Instr.vltm .vector).path = some .vector ∧
      (given false vectorInputs).cfg.vcap = false) ∧
    (decode (given true vectorInputs).inp.cmd = .ok (.vltm .vector) ∧ (given true vectorInputs).cfg.vcap = true) ∧
    (Instr.vltm .fallback).path ≠ some .vector := by
  refine ⟨rfl, ⟨rfl, rfl, rfl⟩, ⟨rfl, rfl⟩, by decide⟩

/-- `RefusalEndsTheRun`: one answer, then a breach of each kind, on an instance without the capability; and a run that is
refused. -/
theorem witness_breach_after_an_answer :
    (∃ t : State, Host.Core.run core 1 { given false addInputs with caller := ⟨[reservedInputs], []⟩ } = .next t ∧
      Inputs.allowed t.cfg t.inp = false) ∧
    (∃ t : State, Host.Core.run core 1 { given false addInputs with caller := ⟨[vectorInputs], []⟩ } = .next t ∧
      Inputs.allowed t.cfg t.inp = false) ∧
    Host.Core.run core 2 { given false addInputs with caller := ⟨[vectorInputs], []⟩ } = .refused .vectorWithoutCapability :=
  ⟨⟨_, rfl, rfl⟩, ⟨_, rfl, rfl⟩, rfl⟩

/-- `OnlyTheOutputsChange`, `ExactlyTheNamedOutputsAreDriven`, `ResetLeavesTheConstantAndNoOutput`: a command and a step that
answer, and a step that is refused. -/
theorem witness_answer :
    (∃ t : State, exec (.add .w2) (given false addInputs) = .next t) ∧ (∃ t : State, step (given false addInputs) = .next t) ∧
    step (given true reservedInputs) = .refused .reservedCommand := ⟨⟨_, rfl⟩, ⟨_, rfl⟩, rfl⟩

/-- `UnnamedInputsDoNotMatter`, its first clause: operands that agree in two limbs and differ above. -/
theorem witness_agree :
    (given false (two (port 1 2 3) (port 4 5 6))).cfg = (given false (two (port 1 2) (port 4 5))).cfg ∧
    (two (port 1 2 3) (port 4 5 6)).agreeOn (.add .w2) (two (port 1 2) (port 4 5)) ∧
    two (port 1 2 3) (port 4 5 6) ≠ two (port 1 2) (port 4 5) ∧
    ∃ t : State, exec (.add .w2) (given false (two (port 1 2 3) (port 4 5 6))) = .next t :=
  ⟨rfl, ⟨rfl, rfl⟩, by decide, ⟨_, rfl⟩⟩

/-- `UnnamedInputsDoNotMatter`, its second clause: a refused command with inputs it does not name. -/
theorem witness_agree_refused :
    (one va).agreeOn (.vzero .vector) (one vb) ∧ exec (.vzero .vector) (given false (one va)) = .refused .vectorWithoutCapability :=
  ⟨trivial, rfl⟩

/-- `StepKeepsEveryAnswerWellShaped`: the invariant in a state whose ports show an answer and whose host holds one, and a step
from it. -/
theorem witness_invariant :
    let s : State := { given false addInputs with out := .limbs [1, 2], caller := ⟨[], [.limbs [1, 2]]⟩ }
    s.Inv ∧ ∃ t : State, step s = .next t := by
  have h : (Outputs.limbs [1, 2]).isAnswer := ⟨.mul64, rfl, rfl⟩
  refine ⟨⟨.inr h, fun o ho => ?_⟩, ⟨_, rfl⟩⟩
  rw [List.mem_singleton.mp ho]
  exact h

/-- `RunAnswersEachTransactionAsAlone`: a run of two allowed transactions. -/
theorem witness_allowed_run :
    ∀ x ∈ State.script { given false addInputs with caller := ⟨[subInputs], []⟩ }, Inputs.allowed ⟨false⟩ x = true := by decide

/-- `EveryInterleavingGivesTheSameAnswers`: the two orders of two transactions. -/
theorem witness_two_orders :
    let s : State := { given false addInputs with caller := ⟨[subInputs], []⟩ }
    let s' : State := { given false subInputs with caller := ⟨[addInputs], []⟩ }
    s.cfg = s'.cfg ∧ s.caller.answers = [] ∧ s'.caller.answers = [] ∧ s.script.Perm s'.script ∧
      ∀ x ∈ s.script, Inputs.allowed s.cfg x = true :=
  ⟨rfl, rfl, rfl, List.Perm.swap _ _ _, witness_allowed_run⟩

/-- `SbbUndoesAdc`: a sum that carries, and its subtraction (D-A-2, D-B-2). -/
theorem witness_sum_that_carries :
    let s := given false (two (port M 0) (port 1 0))
    let u := given false (two (port 0 0) (port 1 0))
    exec .adc s = .next { s with out := { Outputs.undriven with r := [0], cout := some true } } ∧
      u.inp.a[0] = 0 ∧ u.inp.b[0] = s.inp.b[0] ∧ u.inp.cin = s.inp.cin := ⟨rfl, rfl, rfl, rfl⟩

/-- `AddChainsTheCarries`, `SubChainsTheBorrows`: the top limb of the widest form. -/
theorem witness_top_limb : (15 : Fin 16).val < Width.w16.limbs ∧ (1 : Fin 16).val < Width.w2.limbs := by decide

/-- `SubRecoversTheAddend`: the source's named case, `a` the greatest value and `b = 1` (D-AS-1). -/
theorem witness_greatest_plus_one :
    let s := given false (two (port M M) (port 1 0))
    let u := given false (two (port 0 0) (port 1 0))
    exec (.add .w2) s = .next { s with out := { Outputs.undriven with r := [0, 0], cout := some true } } ∧
      u.inp.wideA .w2 = [0, 0] ∧ u.inp.wideB .w2 = s.inp.wideB .w2 := ⟨rfl, rfl, rfl⟩

/-- `ShlFillsFromTheLowerLimb`, `ShrFillsFromTheUpperLimb`: the count 0, the least and the greatest other count, the highest
pair of neighbours, the top limb. -/
theorem witness_counts_and_neighbours :
    (0 : Count) = 0 ∧ (1 : Count) ≠ 0 ∧ (63 : Count) ≠ 0 ∧ (14 : Fin 15).val + 1 < Width.w16.limbs ∧
    (15 : Fin 16).val + 1 = Width.w16.limbs := by decide

/-- `ShiftRoundTripsClearBits`, its two clauses: a shift by 63 (D-SH-1, D-SH-10) and a state that presents its result. -/
theorem witness_shift_round_trip :
    let s := given false (one (port 1 0))
    let s' := given false (one (port 0 T))
    (exec (.shl .w2 63) s = .next { s with out := { Outputs.undriven with r := [T, 0] } } ∧
      (given false (one (port T 0))).inp.wideA .w2 = [T, 0]) ∧
    (exec (.shr .w2 63) s' = .next { s' with out := { Outputs.undriven with r := [0, 1] } } ∧
      (given false (one (port 0 1))).inp.wideA .w2 = [0, 1]) := ⟨⟨rfl, rfl⟩, ⟨rfl, rfl⟩⟩

/-- `ComparesDecideAtTheHighestDifference`, its last clause: the operands exchanged. -/
theorem witness_exchanged_operands :
    (two y4 x4).wideA .w4 = (two x4 y4).wideB .w4 ∧ (two y4 x4).wideB .w4 = (two x4 y4).wideA .w4 := ⟨rfl, rfl⟩

/-- `ClzCountsFromTheTopLimb`, its two clauses: every limb zero; limb 0 the only nonzero one, and the top limb nonzero. -/
theorem witness_clz :
    (∀ i : Fin 16, i.val < Width.w16.limbs → (one (port 0 0)).a[i] = 0) ∧
    ((one (port 1 0)).a[(0 : Fin 16)] ≠ 0 ∧
      ∀ j : Fin 16, (0 : Fin 16) < j → j.val < Width.w16.limbs → (one (port 1 0)).a[j] = 0) ∧
    ((7 : Fin 16).val < Width.w8.limbs ∧ (one va).a[(6 : Fin 16)] ≠ 0 ∧
      ∀ j : Fin 16, (6 : Fin 16) < j → j.val < Width.w8.limbs → (one va).a[j] = 0) := by decide

/-- `IszeroAndIsevenTestTheValue`: a limb of the widest form. -/
theorem witness_limb_of_widest : (15 : Fin 16).val < Width.w16.limbs := by decide

/-- `MulkIsTheExactProduct`, `KaratsubaEqualsSchoolbook`: operands of 2 and of 4 limbs, the widths that exist. -/
theorem witness_karatsuba_widths :
    ([M, M] : List Limb).length = 2 ∧ ([M, M, M, M] : List Limb).length = 4 ∧ (Width.w2 = .w2 ∨ Width.w2 = .w4) ∧
    (Width.w4 = .w2 ∨ Width.w4 = .w4) := by decide

/-- `MulkHasNoWiderForm`: the widths that do not exist. -/
theorem witness_no_wider_karatsuba : (Width.w8 = .w8 ∨ Width.w8 = .w16) ∧ (Width.w16 = .w8 ∨ Width.w16 = .w16) := by decide

/-- `SquareEqualsSelfMultiply`: the same value on both ports. -/
theorem witness_same_value_twice : (two x4 x4).wideB .w4 = (two x4 x4).wideA .w4 := rfl

/-- `VectorCommandsAreGuarded`, its three clauses, and `PathsGiveTheSameAnswers`. -/
theorem witness_guard :
    (Instr.vadd .vector).path = some .vector ∧ (given false (two va vb)).cfg.vcap = false ∧
    (given true (two va vb)).cfg.vcap = true ∧ (Instr.vadd .fallback).path = some .fallback ∧
    (Instr.vadd .fallback).path ≠ none := by decide

/-- `LanesAreIndependent`: two transactions that agree in lane 7 and differ in lane 0. -/
theorem witness_lane :
    let s := given false (two va vb)
    let s' := given false (two (port 9 9 9 9 9 9 9 0) (port 9 9 9 9 9 9 9 0))
    (Instr.vadd .fallback).laneWise = true ∧ (∃ t : State, exec (.vadd .fallback) s = .next t) ∧
    (∃ t' : State, exec (.vadd .fallback) s' = .next t') ∧ s.inp.a[7] = s'.inp.a[7] ∧ s.inp.b[7] = s'.inp.b[7] ∧
    s.inp.k.getLsbD 7 = s'.inp.k.getLsbD 7 := ⟨rfl, ⟨_, rfl⟩, ⟨_, rfl⟩, rfl, rfl, rfl⟩

/-- The premise of `VectorBitwiseByLane`, `VectorAddSubWrapByLane`, `VectorImmediateShiftsByLane`, `VectorVariableShiftsByLane`,
`VeqNeedsAllLanesEqual`, `VectorComparesMinAndMaxByLane`, `VectorBlendAndPermuteByLane`, `VectorSplatAndZero` and
`VectorCompareIdentities`: each path, the fallback on an instance without the capability. -/
theorem witness_vector_premise :
    (Sys2Proof.Path.vector = .vector → (given true (two va vb)).cfg.vcap = true) ∧
    (Sys2Proof.Path.fallback = .vector → (given false (two va vb)).cfg.vcap = true) := by decide

/-- `VectorVariableShiftsByLane`, its two ranges where they meet: the counts 63 and 64. -/
theorem witness_counts_63_and_64 :
    (two va (port 63 64)).b[0].toNat < 64 ∧ 64 ≤ (two va (port 63 64)).b[1].toNat := by decide

/-- `VeqNeedsAllLanesEqual`, its last clause: `EQ.8` answers. -/
theorem witness_eq_8 : ∃ u : State, exec (.eq .w8) (given false (two va vb)) = .next u := ⟨_, rfl⟩

/-- `VectorMoveIdentities`, the two clauses on `VADD` and `VXOR`: their answers (D-V-4, D-V-1) and a state that presents them
with the same `b`. -/
theorem witness_vadd_then_vsub :
    let s := given false (two va vb)
    let u := given false (two (port 3 0xA 4 M M 0xF 0xD 0) vb)
    u.cfg = s.cfg ∧ ∃ t : State, exec (.vadd .fallback) s = .next t ∧ (∀ i : Fin 8, t.out.r[i.val]? = some u.inp.a[i.val]) ∧
      ∀ i : Fin 8, u.inp.b[i.val] = s.inp.b[i.val] := ⟨rfl, _, rfl, by decide, by decide⟩
theorem witness_vxor_twice :
    let s := given false (two va vb)
    let u := given false (two (port 3 0 2 M M 0xF 1 0) vb)
    u.cfg = s.cfg ∧ ∃ t : State, exec (.vxor .fallback) s = .next t ∧ (∀ i : Fin 8, t.out.r[i.val]? = some u.inp.a[i.val]) ∧
      ∀ i : Fin 8, u.inp.b[i.val] = s.inp.b[i.val] := ⟨rfl, _, rfl, by decide, by decide⟩

/-- `VectorMoveIdentities`, the other clauses: a splatted count, the identity index vector, operands swapped under the
complemented mask. -/
theorem witness_moves :
    (∀ i : Fin 8, (two va (port 63 63 63 63 63 63 63 63)).b[i.val] = BitVec.ofNat 64 (63 : Count).toNat) ∧
    (∀ i : Fin 8, (two va (port 0 1 2 3 4 5 6 7)).b[i.val] = BitVec.ofNat 64 i.val) ∧
    ((∀ i : Fin 8, (two vb va).a[i.val] = (two va vb).b[i.val] ∧ (two vb va).b[i.val] = (two va vb).a[i.val]) ∧
      (0x7E : LaneMask) = ~~~0x81) := by decide

/-- `ToBytesByPosition`: the last byte of the widest form. -/
theorem witness_last_byte : 127 < 8 * Width.w16.limbs := by decide

/-- A byte port with its first sixteen bytes given. -/
def bytePort (y : List Byte) : Vector Byte 128 := Vector.ofFn fun i => y.getD i.val 0

/-- The two arrays of D-Y-1 and D-Y-2. -/
def beBytes : List Byte := [0x10, 0x0F, 0x0E, 0x0D, 0x0C, 0x0B, 0x0A, 9, 8, 7, 6, 5, 4, 3, 2, 1]
def leBytes : List Byte := [1, 2, 3, 4, 5, 6, 7, 8, 9, 0x0A, 0x0B, 0x0C, 0x0D, 0x0E, 0x0F, 0x10]

/-- `ByteConversionsRoundTrip`, its four clauses: the answers of D-Y-1 to D-Y-4 and states that present them. -/
theorem witness_to_bytes :
    let s := given false (one y1)
    (exec (.tobe .w2) s = .next { s with out := { Outputs.undriven with bo := beBytes } } ∧
      Inputs.bytes { Inputs.zero with bi := bytePort beBytes } .w2 = beBytes) ∧
    (exec (.tole .w2) s = .next { s with out := { Outputs.undriven with bo := leBytes } } ∧
      Inputs.bytes { Inputs.zero with bi := bytePort leBytes } .w2 = leBytes) :=
  ⟨⟨rfl, by decide⟩, ⟨rfl, by decide⟩⟩
theorem witness_from_bytes :
    let s := given false { Inputs.zero with bi := bytePort beBytes }
    let s' := given false { Inputs.zero with bi := bytePort leBytes }
    let r : List Limb := [0x0807060504030201, 0x100F0E0D0C0B0A09]
    (exec (.frombe .w2) s = .next { s with out := { Outputs.undriven with r := r } } ∧ (one y1).wideA .w2 = r) ∧
    (exec (.fromle .w2) s' = .next { s' with out := { Outputs.undriven with r := r } } ∧ (one y1).wideA .w2 = r) :=
  ⟨⟨rfl, rfl⟩, ⟨rfl, rfl⟩⟩

/-- `VcapqReadsTheConstant`, its last clause: a run of two transactions. -/
theorem witness_run :
    ∃ t : State, Host.Core.run core 2 { given false addInputs with caller := ⟨[subInputs], []⟩ } = .next t := ⟨_, rfl⟩

end Sys2Proof.Tests
end

/-! ## What an operation drives (R27) and what it depends on (R26)

`exec` is split along the commands twice: once for the shape of the answer (`exec_ends`), once for two transactions that
agree on the named inputs (`exec_endAlike`). Each split rests on one lemma per way a command ends: `answered`, `guarded`,
`refuse`. -/

namespace Sys2Proof.Machine

/-! ### What each form of answer drives -/

@[simp] theorem Outputs.driven_limbs (r : List Limb) : (Outputs.limbs r).driven = .limbs r.length := rfl
@[simp] theorem Outputs.driven_limbsCarry (r : List Limb) (c : Bool) :
    (Outputs.limbsCarry r c).driven = .limbsCarry r.length := rfl
@[simp] theorem Outputs.driven_bytes (y : List Byte) : (Outputs.bytes y).driven = .bytes y.length := rfl
@[simp] theorem Outputs.driven_lanes (f : Fin 8 → Limb) : (lanes f).driven = .limbs 8 := rfl

/-- A transaction presented in `s` ends as the block's transactions do: with an answer that drives exactly `d` and leaves
the rest of `s` as it was (R27, R33), or refused (R272). -/
def EndsDriving (d : Driven) (s : State) (e : Host.Outcome State Fault Refusal) : Prop :=
  (∃ o : Outputs, o.driven = d ∧ e = .next (s.answer o)) ∨ ∃ r, e = .refused r

theorem answered_endsDriving {d : Driven} {s : State} {o : Outputs} (h : o.driven = d) :
    EndsDriving d s (answered o s) := .inl ⟨o, h, rfl⟩

theorem guarded_endsDriving {d : Driven} {s : State} {p : Path} {o : Outputs} (h : o.driven = d) :
    EndsDriving d s (guarded p o s) := by
  obtain ⟨-, hg⟩ | ⟨-, hg⟩ := guarded_ends p o s
  · exact .inl ⟨o, h, hg⟩
  · exact .inr ⟨_, hg⟩

theorem refuse_endsDriving (d : Driven) (s : State) (r : Refusal) : EndsDriving d s (refuse r) := .inr ⟨r, rfl⟩

/-- `MULK` at the two widths it has (R170); the other two are refused. -/
theorem execMulk_ends (w : Width) (s : State) : EndsDriving (.limbs (2 * w.limbs)) s (execMulk w s) := by
  cases w with
  | w2 => exact answered_endsDriving (congrArg Driven.limbs (k2_exact _ _ (wideA_length _ _) (wideB_length _ _)).1)
  | w4 => exact answered_endsDriving (congrArg Driven.limbs (k4_exact _ _ (wideA_length _ _) (wideB_length _ _)).1)
  | w8 | w16 => exact refuse_endsDriving _ _ _

/-- Every command, in every state, drives exactly the outputs its rule names and changes nothing else, or is refused. -/
theorem exec_ends (i : Instr) (s : State) : EndsDriving i.names s (exec i s) := by
  cases i with
  | adc | sbb | mul64 | sqr64 | eq w | lt w | gt w | clz w | iszero w | iseven w | vcapq =>
    exact answered_endsDriving rfl
  | add w => exact answered_endsDriving (by simp [addN_length, Instr.names])
  | sub w => exact answered_endsDriving (by simp [subN_length, Instr.names])
  | muls w => exact answered_endsDriving (by simp [mulsN_length, Instr.names])
  | mulw w => exact answered_endsDriving (by simp [mulwN_length, Instr.names, Nat.two_mul])
  | shl w n => exact answered_endsDriving (by simp [shlN_length, Instr.names])
  | shr w n => exact answered_endsDriving (by simp [shrN_length, Instr.names])
  | mulk w => exact execMulk_ends w s
  | sqr w => exact answered_endsDriving (by simp [sqrN_length, Instr.names])
  | vxor p | vand p | vor p | vadd p | vsub p | vshli p n | vshri p n | vshlv p | vshrv p | vmin p | vmax p | vblend p
  | vperm p | vsplat p | vzero p =>
    exact guarded_endsDriving (Outputs.driven_lanes _)
  | veq p | vltm p | vgtm p => exact guarded_endsDriving rfl
  | tobe w | tole w | frombe w | fromle w => exact answered_endsDriving (by simp [Instr.names])

/-- Settles O11: an answer of `exec` is one of the answers of `exec_ends`. -/
theorem exactlyTheNamedOutputsAreDriven : Obligations.ExactlyTheNamedOutputsAreDriven := by
  intro i s t h
  obtain ⟨o, ho, he⟩ | ⟨r, he⟩ := exec_ends i s
  · cases he.symm.trans h
    exact ho
  · cases he.symm.trans h

/-! ### Two transactions that agree on what the command names -/

/-- Transactions presented in `s` and `s'` end alike: with the same answer, each in its own state, or refused for the same
reason. -/
def EndAlike (s s' : State) (e e' : Host.Outcome State Fault Refusal) : Prop :=
  (∃ o : Outputs, e = .next (s.answer o) ∧ e' = .next (s'.answer o)) ∨ ∃ r, e = .refused r ∧ e' = .refused r

theorem answered_endAlike {s s' : State} {o o' : Outputs} (h : o = o') :
    EndAlike s s' (answered o s) (answered o' s') := by
  subst h
  exact .inl ⟨o, rfl, rfl⟩

/-- The guard reads `VCAP` and nothing else (R201). -/
theorem guarded_endAlike {s s' : State} {p : Path} {o o' : Outputs} (hc : s.cfg = s'.cfg) (h : o = o') :
    EndAlike s s' (guarded p o s) (guarded p o' s') := by
  subst h
  obtain ⟨hp, hg⟩ | ⟨hp, hg⟩ := guarded_ends p o s
  · exact .inl ⟨o, hg, guarded_next (hc ▸ hp) o⟩
  · exact .inr ⟨_, hg, guarded_refused (hc ▸ hp) o⟩

theorem refuse_endAlike (s s' : State) (r : Refusal) : EndAlike s s' (refuse r) (refuse r) := .inr ⟨r, rfl, rfl⟩

theorem execMulk_endAlike {w : Width} {s s' : State} (h : s.inp.sameWides w s'.inp) :
    EndAlike s s' (execMulk w s) (execMulk w s') := by
  obtain ⟨ha, hb⟩ := h
  cases w with
  | w2 | w4 => exact answered_endAlike (by rw [ha, hb])
  | w8 | w16 => exact refuse_endAlike _ _ _

/-- Every command reads the ports through the operands its rule names only: the cases are grouped by those operands. -/
theorem exec_endAlike {i : Instr} {s s' : State} (hc : s.cfg = s'.cfg) (h : s.inp.agreeOn i s'.inp) :
    EndAlike s s' (exec i s) (exec i s') := by
  cases i with
  | adc | sbb =>
    obtain ⟨⟨ha, hb⟩, hcin⟩ := h
    exact answered_endAlike (by rw [ha, hb, hcin])
  | mul64 =>
    obtain ⟨ha, hb⟩ := h
    exact answered_endAlike (by rw [ha, hb])
  | sqr64 | iseven w =>
    have ha : s.inp.scalarA = s'.inp.scalarA := h
    exact answered_endAlike (by rw [ha])
  | add w | sub w | mulw w | eq w | lt w | gt w =>
    obtain ⟨ha, hb⟩ := h
    exact answered_endAlike (by rw [ha, hb])
  | mulk w => exact execMulk_endAlike h
  | muls w =>
    obtain ⟨ha, hs⟩ := h
    exact answered_endAlike (by rw [ha, hs])
  | shl w n | shr w n | clz w | iszero w | sqr w | tobe w | tole w =>
    have ha : s.inp.wideA w = s'.inp.wideA w := h
    exact answered_endAlike (by rw [ha])
  | vxor p | vand p | vor p | vadd p | vsub p | vshlv p | vshrv p | veq p | vltm p | vgtm p | vmin p | vmax p | vperm p =>
    obtain ⟨ha, hb⟩ := h
    exact guarded_endAlike hc (by simp only [ha, hb])
  | vshli p n | vshri p n =>
    have ha : ∀ j, s.inp.laneA j = s'.inp.laneA j := h
    exact guarded_endAlike hc (by simp only [ha])
  | vblend p =>
    obtain ⟨⟨ha, hb⟩, hk⟩ := h
    exact guarded_endAlike hc (by simp only [ha, hb, hk])
  | vsplat p =>
    have hs : s.inp.s = s'.inp.s := h
    exact guarded_endAlike hc (by rw [hs])
  | vzero p => exact guarded_endAlike hc rfl
  | frombe w | fromle w =>
    have hbi : s.inp.bytes w = s'.inp.bytes w := h
    exact answered_endAlike (by rw [hbi])
  | vcapq => exact answered_endAlike (by rw [hc])

/-- Settles O12: both clauses read off `exec_endAlike`. -/
theorem unnamedInputsDoNotMatter : Obligations.UnnamedInputsDoNotMatter := by
  intro i s s' hc h
  obtain ⟨o, he, he'⟩ | ⟨r, he, he'⟩ := exec_endAlike hc h
  · rw [he, he']
    exact ⟨fun t ht => by cases ht; rfl, nofun⟩
  · rw [he, he']
    exact ⟨nofun, fun _ hr => hr⟩

end Sys2Proof.Machine

/-! ## The decoder against the opcode map (R61, R66, R67) and against the encoder (R72)

The branches of `decode` are split once, in `decode_readsByTable`: each branch is the row of its `OP`, and one lemma per
format says that the checks of that format are the row's mask and match. The commands are split once, in
`decode_encode`. -/

namespace Sys2Proof

/-! ### Selection by mask and match, field by field (R60, R61) -/

/-- `(w & mask) = match` (R61). -/
def OpcodeRow.Selects (r : OpcodeRow) (w : CmdWord) : Prop := w &&& r.format.mask = r.matchWord

/-- Words with the same four fields are the same word (R60). -/
theorem cmdWord_eq_iff_fields {w w' : CmdWord} :
    w = w' ↔ opField w = opField w' ∧ fbField w = fbField w' ∧ wField w = wField w' ∧ immField w = immField w' := by
  constructor
  · rintro rfl
    exact ⟨rfl, rfl, rfl, rfl⟩
  · rintro ⟨hop, hfb, hw, himm⟩
    rw [← pack_fields w, ← pack_fields w', hop, hfb, hw, himm]

theorem OpcodeRow.matchWord_eq_pack (r : OpcodeRow) : r.matchWord = pack 0 0 0 r.op := by
  apply BitVec.eq_of_toNat_eq
  have := r.op.isLt
  rw [pack_toNat, OpcodeRow.matchWord, BitVec.toNat_setWidth, Nat.mod_eq_of_lt (by omega)]
  simp

theorem Format.opField_mask (f : Format) : opField f.mask = BitVec.allOnes 7 := by cases f <;> rfl

/-- Every row fixes `OP`; of the other fields it fixes to zero the bits that its format's mask has. -/
theorem OpcodeRow.selects_iff {r : OpcodeRow} {w : CmdWord} :
    r.Selects w ↔ opField w = r.op ∧ fbField w &&& fbField r.format.mask = 0 ∧
      wField w &&& wField r.format.mask = 0 ∧ immField w &&& immField r.format.mask = 0 := by
  have hop : opField (w &&& r.format.mask) = opField w := by
    rw [opField, BitVec.extractLsb'_and, ← opField, ← opField, Format.opField_mask, BitVec.and_allOnes]
  have hfb : fbField (w &&& r.format.mask) = fbField w &&& fbField r.format.mask := BitVec.extractLsb'_and
  have hw : wField (w &&& r.format.mask) = wField w &&& wField r.format.mask := BitVec.extractLsb'_and
  have himm : immField (w &&& r.format.mask) = immField w &&& immField r.format.mask := BitVec.extractLsb'_and
  rw [OpcodeRow.Selects, matchWord_eq_pack, cmdWord_eq_iff_fields, hop, hfb, hw, himm]
  simp

theorem opField_of_selects {r : OpcodeRow} {w : CmdWord} (h : r.Selects w) : opField w = r.op :=
  (OpcodeRow.selects_iff.mp h).1

/-- No two rows share an `OP`. -/
theorem opcodeTable_op_injective {r r' : OpcodeRow} (hr : r ∈ opcodeTable) (hr' : r' ∈ opcodeTable)
    (h : r.op = r'.op) : r = r' :=
  List.inj_on_of_nodup_map (f := OpcodeRow.op) (by decide) hr hr' h

/-- No two rows share a mnemonic. -/
theorem opcodeTable_mnemonic_injective {r r' : OpcodeRow} (hr : r ∈ opcodeTable) (hr' : r' ∈ opcodeTable)
    (h : r.mnemonic = r'.mnemonic) : r = r' :=
  List.inj_on_of_nodup_map (f := OpcodeRow.mnemonic) (by decide) hr hr' h

/-! ### Format by format: the fields that a row of the format asks to be zero (R61, R64) -/

section
variable {m : String} {op : BitVec 7} {w : CmdWord}

/-- The masks of the three fields that a format may fix whole, as their literals. -/
theorem and_mask_fb (x : BitVec 1) : x &&& 1#1 = x := BitVec.and_allOnes
theorem and_mask_w (x : BitVec 2) : x &&& 3#2 = x := BitVec.and_allOnes
theorem and_mask_imm (x : Count) : x &&& 63#6 = x := BitVec.and_allOnes

theorem selects_p_iff : OpcodeRow.Selects ⟨m, op, .p⟩ w ↔
    opField w = op ∧ fbField w = 0 ∧ wField w = 0 ∧ immField w = 0 := by
  simp [OpcodeRow.selects_iff, Format.mask, fbField, wField, immField, and_mask_fb, and_mask_w, and_mask_imm]

theorem selects_w_iff : OpcodeRow.Selects ⟨m, op, .w⟩ w ↔ opField w = op ∧ fbField w = 0 ∧ immField w = 0 := by
  simp [OpcodeRow.selects_iff, Format.mask, fbField, wField, immField, and_mask_fb, and_mask_imm]

theorem selects_wk_iff : OpcodeRow.Selects ⟨m, op, .wk⟩ w ↔
    opField w = op ∧ fbField w = 0 ∧ w.getLsbD 9 = false ∧ immField w = 0 := by
  have hbit : ∀ x : BitVec 2, x &&& 2#2 = 0#2 ↔ x.getLsbD 1 = false := by decide
  simp [OpcodeRow.selects_iff, Format.mask, fbField, wField, immField, and_mask_fb, and_mask_imm, hbit]

theorem selects_wi_iff : OpcodeRow.Selects ⟨m, op, .wi⟩ w ↔ opField w = op ∧ fbField w = 0 := by
  simp [OpcodeRow.selects_iff, Format.mask, fbField, wField, immField, and_mask_fb]

theorem selects_v_iff : OpcodeRow.Selects ⟨m, op, .v⟩ w ↔ opField w = op ∧ wField w = 0 ∧ immField w = 0 := by
  simp [OpcodeRow.selects_iff, Format.mask, fbField, wField, immField, and_mask_w, and_mask_imm]

theorem selects_vi_iff : OpcodeRow.Selects ⟨m, op, .vi⟩ w ↔ opField w = op ∧ wField w = 0 := by
  simp [OpcodeRow.selects_iff, Format.mask, fbField, wField, immField, and_mask_w]

end

/-! ### What a reading of a word says: its row and its encoding, or that no row selects it -/

/-- A reading of `w` is the one the opcode map gives: a command whose encoding is `w` and whose row selects `w`, or
reserved, and then no row selects `w`. -/
def ReadsByTable (w : CmdWord) : Except Reserved Instr → Prop
  | .ok i => i.WellFormed ∧ encode i = w ∧ ∃ r ∈ opcodeTable, r.Selects w ∧ i.mnemonic = r.mnemonic
  | .error _ => ∀ r ∈ opcodeTable, ¬r.Selects w

section
variable {w : CmdWord} {op : BitVec 7} {e : Reserved}

/-- A word that the row of its `OP` does not select is selected by no row. -/
theorem readsByTable_error {r : OpcodeRow} (hr : r ∈ opcodeTable) (hop : opField w = r.op) (h : ¬r.Selects w) :
    ReadsByTable w (.error e) := by
  intro r' hr' hsel
  have hrr' : r = r' := opcodeTable_op_injective hr hr' (hop.symm.trans (opField_of_selects hsel))
  exact h (hrr' ▸ hsel)

/-- The shape of every format's decoder: one check `c`, which must be the row's mask and match. -/
theorem readsByTable_ite {r : OpcodeRow} {i : Instr} {c : Prop} [Decidable c] (hr : r ∈ opcodeTable)
    (hop : opField w = r.op) (hc : r.Selects w ↔ c) (hm : i.mnemonic = r.mnemonic)
    (hi : c → i.WellFormed ∧ encode i = w) : ReadsByTable w (if c then .ok i else .error e) := by
  split
  case isTrue h =>
    obtain ⟨hwf, henc⟩ := hi h
    exact ⟨hwf, henc, r, hr, hc.mpr h, hm⟩
  case isFalse h => exact readsByTable_error hr hop (mt hc.mp h)

/-! ### Format by format: the decoder's check is the row's mask and match -/

theorem decodeP_readsByTable {i : Instr} (hr : ⟨i.mnemonic, op, .p⟩ ∈ opcodeTable)
    (hwf : i.WellFormed) (henc : encode i = pack 0 0 0 op) (hop : opField w = op) : ReadsByTable w (decodeP w i) := by
  refine readsByTable_ite hr hop (by simp [selects_p_iff, hop]) rfl ?_
  rintro ⟨hfb, hw, himm⟩
  exact ⟨hwf, by rw [henc, ← hfb, ← hw, ← himm, ← hop, pack_fields]⟩

theorem decodeW_readsByTable {f : Width → Instr} (hr : ⟨(f .w2).mnemonic, op, .w⟩ ∈ opcodeTable)
    (hf : ∀ v, (f v).mnemonic = (f .w2).mnemonic ∧ (f v).WellFormed ∧ encode (f v) = pack 0 v.code 0 op)
    (hop : opField w = op) : ReadsByTable w (decodeW w f) := by
  obtain ⟨hm, hwf, henc⟩ := hf (Width.ofCode (wField w))
  refine readsByTable_ite hr hop (by simp [selects_w_iff, hop]) hm ?_
  rintro ⟨hfb, himm⟩
  exact ⟨hwf, by rw [henc, Width.code_ofCode, ← hfb, ← himm, ← hop, pack_fields]⟩

theorem decodeWI_readsByTable {f : Width → Count → Instr} (hr : ⟨(f .w2 0).mnemonic, op, .wi⟩ ∈ opcodeTable)
    (hf : ∀ v n, (f v n).mnemonic = (f .w2 0).mnemonic ∧ (f v n).WellFormed ∧ encode (f v n) = pack n v.code 0 op)
    (hop : opField w = op) : ReadsByTable w (decodeWI w f) := by
  obtain ⟨hm, hwf, henc⟩ := hf (Width.ofCode (wField w)) (immField w)
  refine readsByTable_ite hr hop (by simp [selects_wi_iff, hop]) hm fun hfb => ⟨hwf, ?_⟩
  rw [henc, Width.code_ofCode, ← hfb, ← hop, pack_fields]

theorem decodeV_readsByTable {f : Path → Instr} (hr : ⟨(f .vector).mnemonic, op, .v⟩ ∈ opcodeTable)
    (hf : ∀ p, (f p).mnemonic = (f .vector).mnemonic ∧ (f p).WellFormed ∧ encode (f p) = pack 0 0 p.bit op)
    (hop : opField w = op) : ReadsByTable w (decodeV w f) := by
  obtain ⟨hm, hwf, henc⟩ := hf (Path.ofBit (fbField w))
  refine readsByTable_ite hr hop (by simp [selects_v_iff, hop]) hm ?_
  rintro ⟨hw, himm⟩
  exact ⟨hwf, by rw [henc, Path.bit_ofBit, ← hw, ← himm, ← hop, pack_fields]⟩

theorem decodeVI_readsByTable {f : Path → Count → Instr} (hr : ⟨(f .vector 0).mnemonic, op, .vi⟩ ∈ opcodeTable)
    (hf : ∀ p n, (f p n).mnemonic = (f .vector 0).mnemonic ∧ (f p n).WellFormed ∧ encode (f p n) = pack n 0 p.bit op)
    (hop : opField w = op) : ReadsByTable w (decodeVI w f) := by
  obtain ⟨hm, hwf, henc⟩ := hf (Path.ofBit (fbField w)) (immField w)
  refine readsByTable_ite hr hop (by simp [selects_vi_iff, hop]) hm fun hw => ⟨hwf, ?_⟩
  rw [henc, Path.bit_ofBit, ← hw, ← hop, pack_fields]

end

/-- `CMD[9] = 0` leaves the two widths that `MULK` has (R64). -/
theorem mulk_wellFormed_of_bit {w : CmdWord} (h : w.getLsbD 9 = false) :
    (Instr.mulk (Width.ofCode (wField w))).WellFormed := by
  have hcodes : ∀ x : BitVec 2, x.getLsbD 1 = false → (Width.ofCode x).karatsuba = true := by decide
  exact hcodes (wField w) (by simpa [wField] using h)

/-- `MULK` has a second check, for the widths it does not have (R67, step 3). -/
theorem decodeMulk_readsByTable {w : CmdWord} (hop : opField w = 0x20) : ReadsByTable w (decodeMulk w) := by
  have hr : (⟨"MULK", 0x20, .wk⟩ : OpcodeRow) ∈ opcodeTable := by decide
  unfold decodeMulk
  split
  case isTrue h =>
    obtain ⟨hfb, himm⟩ := h
    split
    case isTrue hbit => exact readsByTable_error hr hop (by simp [selects_wk_iff, hbit])
    case isFalse hbit =>
      rw [Bool.not_eq_true] at hbit
      refine ⟨mulk_wellFormed_of_bit hbit, ?_, _, hr, selects_wk_iff.mpr ⟨hop, hfb, hbit, himm⟩, rfl⟩
      rw [encode, Width.code_ofCode, ← hfb, ← himm, ← hop, pack_fields]
  case isFalse h =>
    refine readsByTable_error hr hop fun hsel => ?_
    obtain ⟨-, hfb, -, himm⟩ := selects_wk_iff.mp hsel
    exact h ⟨hfb, himm⟩

theorem opField_of_toNat {w : CmdWord} {n : Nat} (h : (opField w).toNat = n) : opField w = BitVec.ofNat 7 n := by
  rw [← h, BitVec.ofNat_toNat, BitVec.setWidth_eq]

/-- A word whose `OP` no row has is selected by no row. -/
theorem not_selects_of_no_row {w : CmdWord} (h : ∀ r ∈ opcodeTable, (opField w).toNat ≠ r.op.toNat) :
    ∀ r ∈ opcodeTable, ¬r.Selects w :=
  fun r hr hsel => h r hr (congrArg BitVec.toNat (opField_of_selects hsel))

/-- The decoder reads every word as the opcode map says. The branches are numbered in the order of rule R66; the last one
is for the `OP` values that no row has. -/
theorem decode_readsByTable (w : CmdWord) : ReadsByTable w (decode w) := by
  unfold decode
  split
  case h_1 h | h_2 h | h_3 h | h_4 h | h_41 h =>
    exact decodeP_readsByTable (by decide) rfl rfl (opField_of_toNat h)
  case h_5 h | h_6 h | h_7 h | h_8 h | h_11 h | h_12 h | h_13 h | h_14 h | h_15 h | h_16 h | h_18 h | h_37 h | h_38 h
     | h_39 h | h_40 h =>
    exact decodeW_readsByTable (by decide) (fun _ => ⟨rfl, rfl, rfl⟩) (opField_of_toNat h)
  case h_9 h | h_10 h => exact decodeWI_readsByTable (by decide) (fun _ _ => ⟨rfl, rfl, rfl⟩) (opField_of_toNat h)
  case h_17 h => exact decodeMulk_readsByTable (opField_of_toNat h)
  case h_19 h | h_20 h | h_21 h | h_22 h | h_23 h | h_26 h | h_27 h | h_28 h | h_29 h | h_30 h | h_31 h | h_32 h | h_33 h
     | h_34 h | h_35 h | h_36 h =>
    exact decodeV_readsByTable (by decide) (fun _ => ⟨rfl, rfl, rfl⟩) (opField_of_toNat h)
  case h_24 h | h_25 h => exact decodeVI_readsByTable (by decide) (fun _ _ => ⟨rfl, rfl, rfl⟩) (opField_of_toNat h)
  case h_42 => exact not_selects_of_no_row (by simp_all [opcodeTable])

/-! ### The encoder, read back -/

theorem decode_encode {i : Instr} (h : i.WellFormed) : decode (encode i) = .ok i := by
  cases i with
  | adc | sbb | mul64 | sqr64 | vcapq => simp [decode, encode, decodeP]
  | add w | sub w | muls w | mulw w | eq w | lt w | gt w | clz w | iszero w | iseven w | sqr w | tobe w | tole w
  | frombe w | fromle w => simp [decode, encode, decodeW]
  | shl w n | shr w n => simp [decode, encode, decodeWI]
  | mulk w =>
    cases w with
    | w2 | w4 => rfl
    | w8 | w16 => cases h
  | vxor p | vand p | vor p | vadd p | vsub p | vshlv p | vshrv p | veq p | vltm p | vgtm p | vmin p | vmax p | vblend p
  | vperm p | vsplat p | vzero p => simp [decode, encode, decodeV]
  | vshli p n | vshri p n => simp [decode, encode, decodeVI]

/-! ### The obligations -/

/-- Settles O3: `decode_encode` in one direction, the opcode map's reading in the other. -/
theorem decodeAcceptsExactlyTheEncodings : Obligations.DecodeAcceptsExactlyTheEncodings := by
  intro w i
  constructor
  · intro h
    have hread := decode_readsByTable w
    rw [h] at hread
    obtain ⟨hwf, henc, -⟩ := hread
    exact ⟨hwf, henc⟩
  · rintro ⟨hwf, rfl⟩
    exact decode_encode hwf

/-- Selection by mask and match is decoding to the row's mnemonic (R61, R67). -/
theorem decode_mnemonic_iff_selects {r : OpcodeRow} (hr : r ∈ opcodeTable) (w : CmdWord) :
    (∃ i, decode w = .ok i ∧ i.mnemonic = r.mnemonic) ↔ r.Selects w := by
  have hread := decode_readsByTable w
  constructor
  · rintro ⟨i, hi, hm⟩
    rw [hi] at hread
    obtain ⟨-, -, r', hr', hsel, hm'⟩ := hread
    exact opcodeTable_mnemonic_injective hr' hr (hm'.symm.trans hm) ▸ hsel
  · intro hsel
    cases hi : decode w with
    | error e =>
      rw [hi] at hread
      exact absurd hsel (hread r hr)
    | ok i =>
      rw [hi] at hread
      obtain ⟨-, -, r', hr', hsel', hm'⟩ := hread
      have hrr' : r' = r :=
        opcodeTable_op_injective hr' hr ((opField_of_selects hsel').symm.trans (opField_of_selects hsel))
      exact ⟨i, rfl, hrr' ▸ hm'⟩

/-- Settles O4: the masks and match words by evaluation, the selection by `decode_mnemonic_iff_selects`. -/
theorem maskAndMatchSelectTheOperation : Obligations.MaskAndMatchSelectTheOperation :=
  ⟨by decide, by decide, fun _ hr w => decode_mnemonic_iff_selects hr w⟩

end Sys2Proof

/-! ## The scalar primitives (R100, R102, R104, R106)

Each half of a helper's pair is said once on numbers; each command is its helper on limb 0 of the ports, with every output
that its rule does not name undriven. -/

namespace Sys2Proof.Machine

/-! ### The helpers on numbers -/

section
variable (a b : Limb) (c : Bool)

theorem adc_sum_toNat : (adc a b c).1.toNat = (a.toNat + b.toNat + c.toNat) % 2 ^ 64 :=
  BitVec.toNat_ofNat _ _

theorem adc_carry_iff : (adc a b c).2 = true ↔ 2 ^ 64 ≤ a.toNat + b.toNat + c.toNat :=
  decide_eq_true_iff

/-- The remainder of Lean's `%` on `Int` by a positive number is the non-negative one that rule R102 asks for. -/
theorem sbb_difference_toNat :
    ((sbb a b c).1.toNat : Int) = ((a.toNat : Int) - b.toNat - c.toNat) % 2 ^ 64 := by
  rw [sbb, BitVec.toNat_ofInt, Int.toNat_of_nonneg (Int.emod_nonneg _ (by decide))]
  rfl

theorem sbb_borrow_iff : (sbb a b c).2 = true ↔ a.toNat < b.toNat + c.toNat :=
  decide_eq_true_iff

theorem mul64_low_toNat : (mul64 a b).1.toNat = a.toNat * b.toNat % 2 ^ 64 :=
  BitVec.toNat_ofNat _ _

/-- The high half is not cut when it is narrowed to a limb: with the low half it is the exact product. -/
theorem mul64_high_toNat : (mul64 a b).2.toNat = a.toNat * b.toNat / 2 ^ 64 := by
  have hlow := (mul64 a b).1.isLt
  have hexact := mul64_exact a b
  omega

end

/-! ### The commands: the helper's answer and the frame -/

section
variable (s : State)

theorem exec_adc :
    exec .adc s = .next { s with out := { Outputs.undriven with
      r := [(adc s.inp.a[0] s.inp.b[0] s.inp.cin).1], cout := some (adc s.inp.a[0] s.inp.b[0] s.inp.cin).2 } } := rfl

theorem exec_sbb :
    exec .sbb s = .next { s with out := { Outputs.undriven with
      r := [(sbb s.inp.a[0] s.inp.b[0] s.inp.cin).1], cout := some (sbb s.inp.a[0] s.inp.b[0] s.inp.cin).2 } } := rfl

theorem exec_mul64 :
    exec .mul64 s = .next { s with out := { Outputs.undriven with
      r := [(mul64 s.inp.a[0] s.inp.b[0]).1, (mul64 s.inp.a[0] s.inp.b[0]).2] } } := rfl

theorem exec_sqr64 :
    exec .sqr64 s = .next { s with out := { Outputs.undriven with
      r := [(mul64 s.inp.a[0] s.inp.a[0]).1, (mul64 s.inp.a[0] s.inp.a[0]).2] } } := rfl

end

/-! ### The obligations -/

/-- Settles O18: the answer of `ADC` is `adc`, whose two parts are the sum and the carry. -/
theorem adcGivesSumAndCarry : Obligations.AdcGivesSumAndCarry :=
  ⟨rfl, fun s => ⟨_, _, exec_adc s, adc_sum_toNat _ _ _, adc_carry_iff _ _ _⟩⟩

/-- Settles O19: the answer of `SBB` is `sbb`, whose two parts are the difference and the borrow. -/
theorem sbbGivesDifferenceAndBorrow : Obligations.SbbGivesDifferenceAndBorrow :=
  ⟨rfl, fun s => ⟨_, _, exec_sbb s, sbb_difference_toNat _ _ _, sbb_borrow_iff _ _ _⟩⟩

/-- Settles O20: `MUL64` answers `mul64` of the two operands, `SQR64` answers it of `A[0]` twice. -/
theorem mul64AndSqr64GiveBothHalves : Obligations.Mul64AndSqr64GiveBothHalves :=
  ⟨rfl, rfl, fun s => ⟨_, _, _, _, exec_mul64 s, exec_sqr64 s,
    mul64_low_toNat _ _, mul64_high_toNat _ _, mul64_low_toNat _ _, mul64_high_toNat _ _⟩⟩

end Sys2Proof.Machine

/-! ## Compare, count, predicates (R150 to R152, R154, R156, R157)

Each helper is first said limb by limb: `cmpN` by induction along the two sequences, `clzN` through its value law
(`clzN_add_bitlen`), the predicates through the value. The limbs of a sequence are then those of the port. -/

namespace Sys2Proof.Machine

/-! ### The comparison at the highest difference (R150, R151) -/

/-- At the highest index where the sequences differ, the limb of `a` is the smaller one, unsigned (R151). -/
def LtAtHighestDifference (a b : List Limb) : Prop :=
  ∃ (i : Nat) (x y : Limb), a[i]? = some x ∧ b[i]? = some y ∧ x.toNat < y.toNat ∧ ∀ j, i < j → a[j]? = b[j]?

/-- The limbs above the first decide; if they agree, the first does. -/
theorem ltAtHighestDifference_cons (x y : Limb) (xs ys : List Limb) :
    LtAtHighestDifference (x :: xs) (y :: ys) ↔ LtAtHighestDifference xs ys ∨ xs = ys ∧ x.toNat < y.toNat := by
  constructor
  · rintro ⟨_ | i, x', y', hx, hy, hlt, habove⟩
    · cases hx
      cases hy
      exact .inr ⟨List.ext_getElem? fun j => habove (j + 1) (Nat.succ_pos j), hlt⟩
    · exact .inl ⟨i, x', y', hx, hy, hlt, fun j hj => habove (j + 1) (Nat.succ_lt_succ hj)⟩
  · rintro (⟨i, x', y', hx, hy, hlt, habove⟩ | ⟨rfl, hlt⟩)
    · refine ⟨i + 1, x', y', hx, hy, hlt, fun j hj => ?_⟩
      obtain ⟨j, rfl⟩ := Nat.exists_eq_add_of_lt (Nat.zero_lt_of_lt hj)
      simpa using habove j (by omega)
    · refine ⟨0, x, y, rfl, rfl, hlt, fun j hj => ?_⟩
      rw [List.getElem?_cons, List.getElem?_cons, if_neg (by omega), if_neg (by omega)]

theorem cmpN_cons_eq_lt_iff (x y : Limb) (xs ys : List Limb) :
    cmpN (x :: xs) (y :: ys) = .lt ↔ cmpN xs ys = .lt ∨ cmpN xs ys = .eq ∧ x.toNat < y.toNat := by
  rw [cmpN]
  cases cmpN xs ys with
  | lt | gt => simp
  | eq =>
    by_cases hlt : x.toNat < y.toNat
    · simp [hlt]
    · by_cases hgt : y.toNat < x.toNat <;> simp [hlt, hgt]

section
variable {a b : List Limb} (h : a.length = b.length)
include h

theorem cmpN_eq_iff_same : cmpN a b = .eq ↔ a = b :=
  (cmpN_eq_iff h).trans ⟨val_inj h, congrArg val⟩

theorem cmpN_lt_iff_highestDifference : cmpN a b = .lt ↔ LtAtHighestDifference a b := by
  induction a generalizing b with
  | nil => cases b with
    | nil => simp [cmpN, LtAtHighestDifference]
    | cons y ys => cases h
  | cons x xs ih => cases b with
    | nil => cases h
    | cons y ys =>
      have hl : xs.length = ys.length := by simpa using h
      rw [cmpN_cons_eq_lt_iff, ltAtHighestDifference_cons, ih hl, cmpN_eq_iff_same hl]

/-- `GT` of (a, b) is `LT` of (b, a) (R152). -/
theorem cmpN_gt_iff_swap : cmpN a b = .gt ↔ cmpN b a = .lt :=
  (cmpN_gt_iff h).trans (cmpN_lt_iff h.symm).symm

end

/-! ### The count from the highest nonzero limb (R154) -/

theorem val_eq_zero_iff (a : List Limb) : val a = 0 ↔ ∀ x ∈ a, x = 0 := by
  induction a with
  | nil => simp
  | cons x xs ih =>
    have hx : x.toNat = 0 ↔ x = 0 := ⟨fun h => BitVec.eq_of_toNat_eq h, fun h => congrArg BitVec.toNat h⟩
    rw [List.forall_mem_cons, ← ih, ← hx, val_cons]
    omega

/-- With only zero limbs above limb `i`, that limb is the top of the value. -/
theorem val_of_zero_above {a : List Limb} {i : Nat} {x : Limb} (hi : a[i]? = some x)
    (habove : ∀ y ∈ a.drop (i + 1), y = 0) : val a = val (a.take i) + 2 ^ (64 * i) * x.toNat := by
  obtain ⟨hlt, rfl⟩ := List.getElem?_eq_some_iff.mp hi
  have hlen : (a.take i).length = i := List.length_take_of_le hlt.le
  calc val a = val (a.take i ++ a[i] :: a.drop (i + 1)) := by
        rw [List.getElem_cons_drop, List.take_append_drop]
    _ = _ := by rw [val_append, hlen, val_cons, (val_eq_zero_iff _).mpr habove, Nat.mul_zero, Nat.add_zero]

theorem clzN_of_all_zero {a : List Limb} (h : ∀ x ∈ a, x = 0) : clzN a = 64 * a.length := by
  have hsum := clzN_add_bitlen a
  rwa [(val_eq_zero_iff a).mpr h] at hsum

theorem clzN_of_highest_nonzero {a : List Limb} {i : Nat} {x : Limb} (hi : a[i]? = some x) (hx : x ≠ 0)
    (habove : ∀ y ∈ a.drop (i + 1), y = 0) : clzN a = 64 * (a.length - 1 - i) + (63 - x.toNat.log2) := by
  have hlt : i < a.length := (List.getElem?_eq_some_iff.mp hi).1
  have hx0 : x.toNat ≠ 0 := fun h0 => hx (BitVec.eq_of_toNat_eq h0)
  have hlog : x.toNat.log2 < 64 := (Nat.log2_lt hx0).mpr x.isLt
  have hlow : val (a.take i) < 2 ^ (64 * i) := by
    simpa [Nat.min_eq_left hlt.le] using val_lt (a.take i)
  have hbits : bitlen (val a) = 64 * i + (x.toNat.log2 + 1) := by
    rw [val_of_zero_above hi habove, bitlen_top hx0 hlow, bitlen, if_neg hx0]
  have hsum := clzN_add_bitlen a
  omega

/-- The count fits the 32 bits of `CNT`. -/
theorem clzN_wide_toNat (x : Inputs) (w : Width) : (BitVec.ofNat 32 (clzN (x.wideA w))).toNat = clzN (x.wideA w) := by
  have hsum := clzN_add_bitlen (x.wideA w)
  have hw := w.limbs_le
  rw [wideA_length] at hsum
  rw [BitVec.toNat_ofNat, Nat.mod_eq_of_lt (by omega)]

/-! ### Bit 0 (R157) -/

theorem and_one_eq_zero_iff (v : Limb) : v &&& 1 = 0 ↔ v.toNat % 2 = 0 := by
  rw [← Nat.and_one_is_mod, ← BitVec.toNat_inj]
  exact Iff.rfl

theorem getLsbD_zero_eq_false_iff (v : Limb) : v.getLsbD 0 = false ↔ v.toNat % 2 = 0 := by
  simp [BitVec.getLsbD]

/-! ### The limbs of an operand are those of its port (R24) -/

section
variable (u v : Vector Limb 16) (w : Width)

theorem take_limbs_getElem? {i : Fin 16} (h : i.val < w.limbs) : (u.toList.take w.limbs)[i.val]? = some u[i] := by
  simp [h]

/-- Agreement of two operands at the indices that satisfy `p`. -/
theorem take_limbs_agree_iff (p : Nat → Prop) :
    (∀ j, p j → (u.toList.take w.limbs)[j]? = (v.toList.take w.limbs)[j]?) ↔
      ∀ j : Fin 16, p j → j.val < w.limbs → u[j] = v[j] := by
  constructor
  · intro h j hp hj
    simpa [hj] using h j hp
  · intro h j hp
    by_cases hj : j < w.limbs
    · have hs := h ⟨j, hj.trans_le w.limbs_le⟩ hp hj
      simpa [hj, hj.trans_le w.limbs_le] using hs
    · rw [List.getElem?_take, List.getElem?_take, if_neg hj, if_neg hj]

theorem take_limbs_eq_iff :
    u.toList.take w.limbs = v.toList.take w.limbs ↔ ∀ i : Fin 16, i.val < w.limbs → u[i] = v[i] := by
  rw [List.ext_getElem?_iff]
  simpa using take_limbs_agree_iff u v w fun _ => True

theorem ltAtHighestDifference_take_limbs :
    LtAtHighestDifference (u.toList.take w.limbs) (v.toList.take w.limbs) ↔
      ∃ i : Fin 16, i.val < w.limbs ∧ u[i].toNat < v[i].toNat ∧
        ∀ j : Fin 16, i < j → j.val < w.limbs → u[j] = v[j] := by
  constructor
  · rintro ⟨i, x, y, hx, hy, hlt, habove⟩
    have hi : i < w.limbs := by
      have := (List.getElem?_eq_some_iff.mp hx).1
      rw [List.length_take] at this
      omega
    have hi16 := hi.trans_le w.limbs_le
    cases hx.symm.trans (take_limbs_getElem? u w (i := ⟨i, hi16⟩) hi)
    cases hy.symm.trans (take_limbs_getElem? v w (i := ⟨i, hi16⟩) hi)
    exact ⟨⟨i, hi16⟩, hi, hlt, (take_limbs_agree_iff u v w (i < ·)).mp habove⟩
  · rintro ⟨i, hi, hlt, habove⟩
    exact ⟨i, u[i], v[i], take_limbs_getElem? u w hi, take_limbs_getElem? v w hi, hlt,
      (take_limbs_agree_iff u v w (i.val < ·)).mpr habove⟩

end

/-- The limbs of `a` from index `n` up satisfy `p` iff those of the port below the width do. -/
theorem forall_mem_drop_wideA_iff (x : Inputs) (w : Width) (n : Nat) (p : Limb → Prop) :
    (∀ y ∈ (x.wideA w).drop n, p y) ↔ ∀ i : Fin 16, n ≤ i.val → i.val < w.limbs → p x.a[i] := by
  constructor
  · intro h i hn hi
    refine h _ (List.mem_of_getElem? (i := i.val - n) ?_)
    rw [List.getElem?_drop, Nat.add_sub_cancel' hn, wideA_getElem? x w i hi]
  · intro h y hy
    obtain ⟨k, hk⟩ := List.mem_iff_getElem?.mp hy
    rw [List.getElem?_drop] at hk
    have hlt := (List.getElem?_eq_some_iff.mp hk).1
    rw [wideA_length] at hlt
    cases hk.symm.trans (wideA_getElem? x w ⟨n + k, hlt.trans_le w.limbs_le⟩ hlt)
    exact h _ (Nat.le_add_right n k) hlt

theorem forall_mem_wideA_iff (x : Inputs) (w : Width) (p : Limb → Prop) :
    (∀ y ∈ x.wideA w, p y) ↔ ∀ i : Fin 16, i.val < w.limbs → p x.a[i] := by
  simpa using forall_mem_drop_wideA_iff x w 0 p

theorem val_wideA_mod_two (x : Inputs) (w : Width) : val (x.wideA w) % 2 = x.a[0].toNat % 2 := by
  have hhead : (x.wideA w).headD 0 = x.a[0] := by
    rw [List.headD_eq_head?_getD, List.head?_eq_getElem?]
    exact congrArg (·.getD 0) (wideA_getElem? x w 0 w.limbs_pos)
  exact hhead ▸ (headD_mod (x.wideA w) (k := 1) (by decide)).symm

/-! ### The commands: the helper's answer and the frame -/

section
variable (w : Width) (s : State)

theorem exec_eq :
    exec (.eq w) s = .next { s with out := { Outputs.undriven with
      flag := some (decide (cmpN (s.inp.wideA w) (s.inp.wideB w) = .eq)) } } := rfl

theorem exec_lt :
    exec (.lt w) s = .next { s with out := { Outputs.undriven with
      flag := some (decide (cmpN (s.inp.wideA w) (s.inp.wideB w) = .lt)) } } := rfl

theorem exec_gt :
    exec (.gt w) s = .next { s with out := { Outputs.undriven with
      flag := some (decide (cmpN (s.inp.wideA w) (s.inp.wideB w) = .gt)) } } := rfl

theorem exec_clz :
    exec (.clz w) s = .next { s with out := { Outputs.undriven with
      cnt := some (BitVec.ofNat 32 (clzN (s.inp.wideA w))) } } := rfl

theorem exec_iszero :
    exec (.iszero w) s = .next { s with out := { Outputs.undriven with
      flag := some (decide (orAll (s.inp.wideA w) = 0)) } } := rfl

theorem exec_iseven :
    exec (.iseven w) s = .next { s with out := { Outputs.undriven with
      flag := some (decide (s.inp.a[0] &&& 1 = 0)) } } := rfl

/-! ### Each flag, limb by limb -/

theorem cmpN_wide_eq_iff :
    cmpN (s.inp.wideA w) (s.inp.wideB w) = .eq ↔ ∀ i : Fin 16, i.val < w.limbs → s.inp.a[i] = s.inp.b[i] :=
  (cmpN_eq_iff_same (by simp)).trans (take_limbs_eq_iff _ _ w)

theorem cmpN_wide_lt_iff :
    cmpN (s.inp.wideA w) (s.inp.wideB w) = .lt ↔
      ∃ i : Fin 16, i.val < w.limbs ∧ s.inp.a[i].toNat < s.inp.b[i].toNat ∧
        ∀ j : Fin 16, i < j → j.val < w.limbs → s.inp.a[j] = s.inp.b[j] :=
  (cmpN_lt_iff_highestDifference (by simp)).trans (ltAtHighestDifference_take_limbs _ _ w)

theorem cmpN_wide_gt_iff :
    cmpN (s.inp.wideA w) (s.inp.wideB w) = .gt ↔
      ∃ i : Fin 16, i.val < w.limbs ∧ s.inp.b[i].toNat < s.inp.a[i].toNat ∧
        ∀ j : Fin 16, i < j → j.val < w.limbs → s.inp.a[j] = s.inp.b[j] := by
  rw [cmpN_gt_iff_swap (by simp), cmpN_lt_iff_highestDifference (by simp)]
  simpa only [eq_comm, Inputs.wideA, Inputs.wideB] using ltAtHighestDifference_take_limbs s.inp.b s.inp.a w

/-- With the operands exchanged `LT` answers what `GT` answers (R152). -/
theorem exec_lt_of_exchanged {s u : State} (ha : u.inp.wideA w = s.inp.wideB w) (hb : u.inp.wideB w = s.inp.wideA w) :
    exec (.lt w) u = .next { u with out := { Outputs.undriven with
      flag := some (decide (cmpN (s.inp.wideA w) (s.inp.wideB w) = .gt)) } } := by
  rw [exec_lt, ha, hb, decide_eq_decide.mpr (cmpN_gt_iff_swap (a := s.inp.wideA w) (by simp))]

end

/-! ### The obligations -/

/-- Settles O33: the three flags are the three results of `cmpN`, each said limb by limb. -/
theorem comparesDecideAtTheHighestDifference : Obligations.ComparesDecideAtTheHighestDifference := by
  refine fun w => ⟨by cases w <;> decide, fun s => ⟨_, _, _, exec_eq w s, exec_lt w s, exec_gt w s, ?_, ?_, ?_, ?_⟩⟩
  · exact decide_eq_true_iff.trans (cmpN_wide_eq_iff w s)
  · exact decide_eq_true_iff.trans (cmpN_wide_lt_iff w s)
  · exact decide_eq_true_iff.trans (cmpN_wide_gt_iff w s)
  · exact fun u ha hb => exec_lt_of_exchanged w ha hb

/-- Settles O35: the count is `clzN`, 64·N for zero limbs and otherwise read off the highest nonzero limb. -/
theorem clzCountsFromTheTopLimb : Obligations.ClzCountsFromTheTopLimb := by
  refine fun w => ⟨by cases w <;> decide, fun s => ⟨_, exec_clz w s, fun hzero => ?_, fun i hi hx habove => ?_⟩⟩
  · rw [clzN_wide_toNat, clzN_of_all_zero ((forall_mem_wideA_iff _ _ (· = 0)).mpr hzero), wideA_length]
  · have hdrop := (forall_mem_drop_wideA_iff s.inp w (i + 1) (· = 0)).mpr habove
    rw [clzN_wide_toNat, clzN_of_highest_nonzero (wideA_getElem? s.inp w i hi) hx hdrop, wideA_length]

/-- Settles O37: the OR-reduction and bit 0 of `A[0]` are zero exactly when the value and its parity are. -/
theorem iszeroAndIsevenTestTheValue : Obligations.IszeroAndIsevenTestTheValue := by
  refine fun w => ⟨by cases w <;> decide, fun s => ⟨_, _, exec_iszero w s, exec_iseven w s, ?_⟩⟩
  have hval := orAll_eq_zero (s.inp.wideA w)
  have hlimbs := (val_eq_zero_iff (s.inp.wideA w)).trans (forall_mem_wideA_iff s.inp w (· = 0))
  have heven := and_one_eq_zero_iff s.inp.a[0]
  rw [decide_eq_true_iff, decide_eq_true_iff, getLsbD_zero_eq_false_iff, val_wideA_mod_two]
  exact ⟨hval.trans hlimbs, hval, heven, heven⟩

end Sys2Proof.Machine

/-! ## Karatsuba and squaring (R170, R171, R180)

A sequence of limbs is determined by its length and its value (R10), so any two exact multipliers of `h` limbs by `h` give
the same limbs. `MULK` is then stated through the schoolbook product, whose length and value are known. -/

namespace Sys2Proof.Machine

/-! ### Exact multipliers give the same limbs (R171) -/

theorem mulwN_exact (h : Nat) : MultipliesExactly h mulwN := by
  intro a b ha hb
  exact ⟨by rw [mulwN_length, ha, hb, Nat.two_mul], mulwN_val a b⟩

section
variable {h : Nat} {mul : List Limb → List Limb → List Limb} (hm : MultipliesExactly h mul)
variable {a b : List Limb} (ha : a.length = h) (hb : b.length = h)
include hm ha hb

theorem MultipliesExactly.eq_limbsOf : mul a b = limbsOf (2 * h) (val a * val b) := by
  obtain ⟨hlen, hval⟩ := hm a b ha hb
  rw [← hlen, ← hval, limbsOf_val]

theorem MultipliesExactly.eq_mulwN : mul a b = mulwN a b :=
  (hm.eq_limbsOf ha hb).trans ((mulwN_exact h).eq_limbsOf ha hb).symm

end

/-! ### The commands: the helper's answer and the frame -/

section
variable (w : Width) (s : State)

theorem exec_mulw :
    exec (.mulw w) s = .next { s with out := { Outputs.undriven with
      r := mulwN (s.inp.wideA w) (s.inp.wideB w) } } := rfl

theorem exec_sqr :
    exec (.sqr w) s = .next { s with out := { Outputs.undriven with r := sqrN (s.inp.wideA w) } } := rfl

end

/-- At the two widths it has, `MULK` answers the limbs of the schoolbook product. -/
theorem exec_mulk {w : Width} (hw : w = .w2 ∨ w = .w4) (s : State) :
    exec (.mulk w) s = .next { s with out := { Outputs.undriven with
      r := mulwN (s.inp.wideA w) (s.inp.wideB w) } } := by
  obtain rfl | rfl := hw
  · rw [← k2_exact.eq_mulwN (wideA_length _ _) (wideB_length _ _)]
    rfl
  · rw [← k4_exact.eq_mulwN (wideA_length _ _) (wideB_length _ _)]
    rfl

/-! ### The obligations -/

/-- Settles O38: the answer of `MULK` is the schoolbook product, which is exact. -/
theorem mulkIsTheExactProduct : Obligations.MulkIsTheExactProduct := by
  refine ⟨by decide, by decide, fun w hw s => ⟨_, exec_mulk hw s, ?_⟩⟩
  exact mulwN_exact w.limbs _ _ (wideA_length _ _) (wideB_length _ _)

/-- Settles O39: `k2`, `k4` and `mulwN` are exact multipliers, so they give the same limbs. -/
theorem karatsubaEqualsSchoolbook : Obligations.KaratsubaEqualsSchoolbook := by
  refine ⟨fun a b ha hb => ?_, fun a b ha hb => ?_, fun w hw s => ⟨_, exec_mulk hw s, exec_mulw w s⟩⟩
  · exact ⟨k2_exact.eq_mulwN ha hb, k2_exact.eq_limbsOf ha hb⟩
  · exact ⟨k4_exact.eq_mulwN ha hb, k4_exact.eq_limbsOf ha hb⟩

/-- Settles O41: the answer of `SQR` is `sqrN`, whose length and value are known. -/
theorem sqrIsTheExactSquare : Obligations.SqrIsTheExactSquare := by
  refine fun w => ⟨by cases w <;> decide, fun s => ⟨_, exec_sqr w s, ?_, sqrN_val _⟩⟩
  rw [sqrN_length, wideA_length]

end Sys2Proof.Machine

/-! ## The vector kernel: the guard and the two paths (R201, R202), and VXOR to VSUB and VEQ (R205 to R209, R216)

`exec` is split along the vector commands once, in `exec_onPath`: whatever the path, a vector command is the guard of the
path around one answer. Each command after it is that guard around its own lane function. -/

namespace Sys2Proof.Machine

/-! ### Every vector command is a guarded answer, the same on both paths -/

/-- A vector command is the form it has on its own path (R63). -/
theorem onPath_of_path {i : Instr} {p : Path} (h : i.path = some p) : i.onPath p = i := by
  cases i with
  | adc | sbb | mul64 | sqr64 | add _ | sub _ | muls _ | mulw _ | shl _ _ | shr _ _ | eq _ | lt _ | gt _ | clz _ | iszero _
  | iseven _ | mulk _ | sqr _ | tobe _ | tole _ | frombe _ | fromle _ | vcapq => cases h
  | vxor _ | vand _ | vor _ | vadd _ | vsub _ | vshli _ _ | vshri _ _ | vshlv _ | vshrv _ | veq _ | vltm _ | vgtm _ | vmin _
  | vmax _ | vblend _ | vperm _ | vsplat _ | vzero _ =>
    cases h
    rfl

/-- The answer `o` of a vector command does not depend on the path; the guard does (R201, R202). -/
theorem exec_onPath {i : Instr} (h : i.path ≠ none) (s : State) :
    ∃ o : Outputs, ∀ p : Path, exec (i.onPath p) s = guarded p o s := by
  cases i with
  | adc | sbb | mul64 | sqr64 | add _ | sub _ | muls _ | mulw _ | shl _ _ | shr _ _ | eq _ | lt _ | gt _ | clz _ | iszero _
  | iseven _ | mulk _ | sqr _ | tobe _ | tole _ | frombe _ | fromle _ | vcapq => exact absurd rfl h
  | vxor _ | vand _ | vor _ | vadd _ | vsub _ | vshli _ _ | vshri _ _ | vshlv _ | vshrv _ | veq _ | vltm _ | vgtm _ | vmin _
  | vmax _ | vblend _ | vperm _ | vsplat _ | vzero _ => exact ⟨_, fun _ => rfl⟩

/-- The same, for the command on the path it has. -/
theorem exec_of_path {i : Instr} {p : Path} (h : i.path = some p) (s : State) :
    ∃ o : Outputs, exec i s = guarded p o s := by
  obtain ⟨o, ho⟩ := exec_onPath (i := i) (by simp [h]) s
  exact ⟨o, onPath_of_path h ▸ ho p⟩

/-! ### The commands: the guard around the lane function -/

section
variable (p : Path) (s : State)

theorem exec_vxor : exec (.vxor p) s = guarded p (lanes fun i => s.inp.a[i.val] ^^^ s.inp.b[i.val]) s := rfl
theorem exec_vand : exec (.vand p) s = guarded p (lanes fun i => s.inp.a[i.val] &&& s.inp.b[i.val]) s := rfl
theorem exec_vor : exec (.vor p) s = guarded p (lanes fun i => s.inp.a[i.val] ||| s.inp.b[i.val]) s := rfl
theorem exec_vadd : exec (.vadd p) s = guarded p (lanes fun i => s.inp.a[i.val] + s.inp.b[i.val]) s := rfl
theorem exec_vsub : exec (.vsub p) s = guarded p (lanes fun i => s.inp.a[i.val] - s.inp.b[i.val]) s := rfl
theorem exec_veq :
    exec (.veq p) s = guarded p (.bool (decide (∀ i : Fin 8, s.inp.a[i.val] = s.inp.b[i.val]))) s := rfl

end

/-! ### The lanes -/

/-- Lean's `%` on `Int` by a positive number is the non-negative remainder that rule R209 asks for. -/
theorem limb_sub_toNat (a b : Limb) : ((a - b).toNat : Int) = ((a.toNat : Int) - b.toNat) % 2 ^ 64 := by
  have ha := a.isLt
  have hb := b.isLt
  rw [BitVec.toNat_sub]
  omega

/-- `VEQ` and `EQ.8` compare the same limbs (R200, R216). -/
theorem cmpN_eight_limbs_eq_iff (s : State) :
    cmpN (s.inp.wideA .w8) (s.inp.wideB .w8) = .eq ↔ ∀ i : Fin 8, s.inp.a[i.val] = s.inp.b[i.val] := by
  refine (cmpN_wide_eq_iff .w8 s).trans ⟨fun h i => ?_, fun h i hi => h ⟨i.val, hi⟩⟩
  exact h (i.castLE (by decide)) i.isLt

/-! ### The obligations -/

/-- Settles O43: the command is a guarded answer, and the guard refuses only the vector path without the capability. -/
theorem vectorCommandsAreGuarded : Obligations.VectorCommandsAreGuarded := by
  refine fun i s => ⟨fun h hcap => ?_, fun h hcap => ?_, fun h => ?_⟩
  · obtain ⟨o, ho⟩ := exec_of_path h s
    exact ho.trans (guarded_refused (p := .vector) hcap o)
  · obtain ⟨o, ho⟩ := exec_of_path h s
    exact ⟨_, ho.trans (guarded_next (p := .vector) hcap o)⟩
  · obtain ⟨o, ho⟩ := exec_of_path h s
    exact ⟨_, ho.trans (guarded_next rfl o)⟩

/-- Settles O44: the two paths guard one answer, and with the capability both guards let it through. -/
theorem pathsGiveTheSameAnswers : Obligations.PathsGiveTheSameAnswers := by
  intro i s h hcap
  obtain ⟨o, ho⟩ := exec_onPath h s
  have hvector := (ho .vector).trans (guarded_next (p := .vector) hcap o)
  have hfallback := (ho .fallback).trans (guarded_next rfl o)
  exact ⟨hvector.trans hfallback.symm, _, hfallback⟩

/-- Settles O46: each of the three answers is the vector of its lane function. -/
theorem vectorBitwiseByLane : Obligations.VectorBitwiseByLane := by
  refine fun p => ⟨by cases p <;> decide, fun s hcap => ?_⟩
  have hp := (Path.definedOn_iff p s.cfg).mpr hcap
  rw [exec_vxor, exec_vand, exec_vor]
  obtain ⟨x, hx, hxlen, hxlane, -⟩ := guarded_lanes hp fun i => s.inp.a[i.val] ^^^ s.inp.b[i.val]
  obtain ⟨a, ha, halen, halane, -⟩ := guarded_lanes hp fun i => s.inp.a[i.val] &&& s.inp.b[i.val]
  obtain ⟨o, ho, holen, holane, -⟩ := guarded_lanes hp fun i => s.inp.a[i.val] ||| s.inp.b[i.val]
  exact ⟨x, a, o, hx, ha, ho, hxlen, halen, holen, fun i => ⟨hxlane i, halane i, holane i⟩⟩

/-- Settles O47: each lane is the sum or the difference of two limbs, which wraps on its own. -/
theorem vectorAddSubWrapByLane : Obligations.VectorAddSubWrapByLane := by
  refine fun p => ⟨by cases p <;> decide, fun s hcap => ?_⟩
  have hp := (Path.definedOn_iff p s.cfg).mpr hcap
  rw [exec_vadd, exec_vsub]
  obtain ⟨x, hx, hxlen, -, hxlane⟩ := guarded_lanes hp fun i => s.inp.a[i.val] + s.inp.b[i.val]
  obtain ⟨y, hy, hylen, -, hylane⟩ := guarded_lanes hp fun i => s.inp.a[i.val] - s.inp.b[i.val]
  refine ⟨x, y, hx, hy, hxlen, hylen, fun i => ⟨?_, ?_⟩⟩
  · rw [hxlane, BitVec.toNat_add]
  · rw [hylane, limb_sub_toNat]

/-- Settles O50: `VEQ` answers whether the lanes agree, and `EQ.8` decides the same of the same limbs. -/
theorem veqNeedsAllLanesEqual : Obligations.VeqNeedsAllLanesEqual := by
  refine fun p => ⟨by cases p <;> decide, fun s hcap => ?_⟩
  have hp := (Path.definedOn_iff p s.cfg).mpr hcap
  refine ⟨_, (exec_veq p s).trans (guarded_next hp _), decide_eq_true_iff, fun u hu => ?_⟩
  cases (exec_eq .w8 s).symm.trans hu
  exact congrArg some (decide_eq_decide.mpr (cmpN_eight_limbs_eq_iff s))

end Sys2Proof.Machine

/-! ## The capability query (R260, R261)

`VCAPQ` answers the constant `VCAP`, so its answer can change only where the constant does; no step, and so no run,
writes the constant (R28). -/

namespace Sys2Proof.Machine

/-! ### What every step keeps, every run keeps -/

section
variable {M : Host.Core} {n : Nat} {s t : M.State}

/-- A run of one more transaction that answers is a step that answers, then the rest of the run. -/
theorem run_succ_cases (h : M.run (n + 1) s = .next t) : ∃ u, M.step s = .next u ∧ M.run n u = .next t := by
  rw [Host.Core.run] at h
  split at h
  · next u hu => exact ⟨u, hu, h⟩
  · cases h
  · cases h

/-- The induction over a run, said once: what holds at the start and is kept by every step holds at the end. -/
theorem run_keeps {P : M.State → Prop} (hstep : ∀ s t, M.step s = .next t → P s → P t) (h : M.run n s = .next t)
    (hs : P s) : P t := by
  induction n generalizing s with
  | zero => cases h; exact hs
  | succ n ih =>
    obtain ⟨u, hu, hrun⟩ := run_succ_cases h
    exact ih hrun (hstep s u hu hs)

end

/-! ### Nothing writes the constant (R28) -/

/-- A command that answers changes the outputs and nothing else, so it keeps `VCAP`. -/
theorem exec_keeps_cfg {i : Instr} {s t : State} (h : exec i s = .next t) : t.cfg = s.cfg := by
  obtain ⟨o, -, ho⟩ | ⟨r, hr⟩ := exec_ends i s
  · cases h.symm.trans ho
    exact State.answer_cfg s o
  · cases h.symm.trans hr

theorem step_keeps_cfg {s t : State} (h : step s = .next t) : t.cfg = s.cfg := by
  obtain ⟨i, u, -, he, rfl⟩ := step_cases h
  exact (State.handOver_cfg u).trans (exec_keeps_cfg he)

theorem run_keeps_cfg {n : Nat} {s t : State} (h : Host.Core.run core n s = .next t) : t.cfg = s.cfg :=
  run_keeps (M := core) (P := fun u : State => u.cfg = s.cfg) (fun _ _ hstep hs => (step_keeps_cfg hstep).trans hs) h rfl

/-! ### The command and the obligation -/

theorem exec_vcapq (s : State) :
    exec .vcapq s = .next { s with out := { Outputs.undriven with flag := some s.cfg.vcap } } := rfl

/-- Settles O59: the answer reads the constant alone, which every run and a reset keep. -/
theorem vcapqReadsTheConstant : Obligations.VcapqReadsTheConstant := by
  refine ⟨rfl, exec_vcapq, fun s t n hrun => ⟨?_, exec_vcapq (State.resetWith s.cfg)⟩⟩
  rw [← run_keeps_cfg hrun]
  exact exec_vcapq t

end Sys2Proof.Machine

/-! ## Decode, then the guard, then completion (R271, R274, R281)

Past the decoder only two commands can be refused: a vector command by its guard, and `MULK` at the widths it does not
have, which the decoder never gives. -/

namespace Sys2Proof.Machine

theorem wellFormed_of_decode {w : CmdWord} {i : Instr} (h : decode w = .ok i) : i.WellFormed := by
  obtain ⟨hwf, -⟩ := (decodeAcceptsExactlyTheEncodings w i).mp h
  exact hwf

theorem karatsuba_width_cases {w : Width} (h : w.karatsuba = true) : w = .w2 ∨ w = .w4 := by
  cases w with
  | w2 => exact .inl rfl
  | w4 => exact .inr rfl
  | w8 | w16 => cases h

/-- Off the vector kernel there is no guard: a command answers, `MULK` because its width is one of the two it has (R64). -/
theorem exec_answers_of_path_eq_none {i : Instr} (hwf : i.WellFormed) (hp : i.path = none) (s : State) :
    ∃ t, exec i s = .next t := by
  cases i with
  | adc | sbb | mul64 | sqr64 | add w | sub w | muls w | mulw w | shl w n | shr w n | eq w | lt w | gt w | clz w | iszero w
  | iseven w | sqr w | tobe w | tole w | frombe w | fromle w | vcapq => exact ⟨_, answered_eq _ s⟩
  | mulk w => exact ⟨_, exec_mulk (karatsuba_width_cases hwf) s⟩
  | vxor p | vand p | vor p | vadd p | vsub p | vshli p n | vshri p n | vshlv p | vshrv p | veq p | vltm p | vgtm p | vmin p
  | vmax p | vblend p | vperm p | vsplat p | vzero p => cases hp

/-- A well-formed command that the guard lets through answers. -/
theorem exec_answers {i : Instr} {s : State} (hwf : i.WellFormed) (hcap : i.path = some .vector → s.cfg.vcap = true) :
    ∃ t, exec i s = .next t := by
  obtain ⟨-, hvector, hfallback⟩ := vectorCommandsAreGuarded i s
  cases hp : i.path with
  | none => exact exec_answers_of_path_eq_none hwf hp s
  | some p =>
    cases p with
    | vector => exact hvector hp (hcap hp)
    | fallback => exact hfallback hp

/-- Settles O8: a step refuses what the decoder refuses, then what the guard refuses, and hands over every other answer. -/
theorem stepRefusesExactlyTheBreaches : Obligations.StepRefusesExactlyTheBreaches := by
  refine ⟨fun s e hd => step_of_reserved hd, fun s i hd hp hcap => ?_, fun s i hd hcap => ?_⟩
  · obtain ⟨hrefused, -⟩ := vectorCommandsAreGuarded i s
    exact step_of_exec_refused hd (hrefused hp hcap)
  · obtain ⟨u, hu⟩ := exec_answers (wellFormed_of_decode hd) hcap
    exact ⟨u.handOver, step_of_exec hd hu⟩

end Sys2Proof.Machine

/-! ## The invariant, reset and runs (R27, R28, R32, R33, R45, R47, R271)

A command that answers writes the output ports and nothing else, with what its rule names (`exec_answer_cases`); a step
then only moves the host on. The outcome depends on `VCAP` and the transaction alone (`exec_of_same_transaction`), so each
transaction of a run ends as it does first after reset. -/

namespace Sys2Proof.Machine

/-! ### One command, one step -/

/-- All that a command that answers does: it drives the outputs it names and leaves the rest of the state (R27, R33). -/
theorem exec_answer_cases {i : Instr} {s t : State} (h : exec i s = .next t) :
    ∃ o : Outputs, o.driven = i.names ∧ t = s.answer o := by
  obtain ⟨o, ho, he⟩ | ⟨r, he⟩ := exec_ends i s
  · cases he.symm.trans h
    exact ⟨o, ho, rfl⟩
  · cases he.symm.trans h

/-- All that a step that answers does to the state: the host takes an answer of the command presented and moves on. -/
theorem step_answer_cases {s t : State} (h : step s = .next t) : ∃ o : Outputs, o.isAnswer ∧ t = (s.answer o).handOver := by
  obtain ⟨i, u, hd, he, rfl⟩ := step_cases h
  obtain ⟨o, ho, rfl⟩ := exec_answer_cases he
  exact ⟨o, ⟨i, wellFormed_of_decode hd, ho⟩, rfl⟩

/-- The inputs agree with themselves on whatever a command names. -/
theorem Inputs.agreeOn_refl (i : Instr) (x : Inputs) : x.agreeOn i x := by
  cases i with
  | vzero _ | vcapq => trivial
  | sqr64 | shl _ _ | shr _ _ | clz _ | iszero _ | iseven _ | sqr _ | vsplat _ | tobe _ | tole _ | frombe _ | fromle _ =>
    exact rfl
  | mul64 | add _ | sub _ | muls _ | mulw _ | eq _ | lt _ | gt _ | mulk _ => exact ⟨rfl, rfl⟩
  | adc | sbb => exact ⟨⟨rfl, rfl⟩, rfl⟩
  | vshli _ _ | vshri _ _ => exact fun _ => rfl
  | vxor _ | vand _ | vor _ | vadd _ | vsub _ | vshlv _ | vshrv _ | veq _ | vltm _ | vgtm _ | vmin _ | vmax _ | vperm _ =>
    exact ⟨fun _ => rfl, fun _ => rfl⟩
  | vblend _ => exact ⟨⟨fun _ => rfl, fun _ => rfl⟩, rfl⟩

/-- The same transaction under the same constant ends alike, whatever the ports show and the host holds (R26). -/
theorem exec_of_same_transaction (i : Instr) {s s' : State} (hc : s.cfg = s'.cfg) (hx : s.inp = s'.inp) :
    EndAlike s s' (exec i s) (exec i s') :=
  exec_endAlike hc (hx ▸ Inputs.agreeOn_refl i s.inp)

/-- A transaction presented again gives the same answer (R45). -/
theorem exec_idempotent {i : Instr} {s t : State} (h : exec i s = .next t) : exec i t = .next t := by
  obtain ⟨o, -, rfl⟩ := exec_answer_cases h
  obtain ⟨o', he, he'⟩ | ⟨r, he, -⟩ := exec_of_same_transaction i (s := s) (s' := s.answer o) rfl rfl
  · cases he.symm.trans h
    exact he'
  · cases he.symm.trans h

/-- Settles O10: an answer changes the outputs only; the host's move keeps the constant and adds the answer. -/
theorem onlyTheOutputsChange : Obligations.OnlyTheOutputsChange := by
  refine ⟨fun i s t h => ⟨?_, exec_idempotent h⟩, fun s t h => ⟨step_keeps_cfg h, ?_⟩⟩
  · obtain ⟨o, -, rfl⟩ := exec_answer_cases h
    exact ⟨rfl, rfl, rfl⟩
  · obtain ⟨o, -, rfl⟩ := step_answer_cases h
    rfl

/-! ### The invariant -/

/-- Settles O13: a step shows and hands over one answer, of the shape that its command names. -/
theorem stepKeepsEveryAnswerWellShaped : Obligations.StepKeepsEveryAnswerWellShaped := by
  rintro s t ⟨-, hheld⟩ h
  obtain ⟨o, ho, rfl⟩ := step_answer_cases h
  exact ⟨.inr ho, List.forall_mem_append.mpr ⟨hheld, List.forall_mem_singleton.mpr ho⟩⟩

/-- Settles O14: after reset nothing is driven and no answer is held. -/
theorem resetMeetsTheInvariant : Obligations.ResetMeetsTheInvariant :=
  fun _ => ⟨.inl rfl, nofun⟩

/-! ### The step and the decoder -/

theorem tableCmd_encode (i : Instr) : tableCmd 16 (encode i).toNat = encode i := by
  rw [tableCmd, Nat.mod_eq_of_lt (encode i).isLt, BitVec.ofNat_toNat, BitVec.setWidth_eq]

/-- Settles O7: the step is `exec` of the decoded command, whose three outcomes it passes on; the word that
`withFetchWord` presents is the command's encoding. -/
theorem stepRunsTheDecodedCommand : Obligations.StepRunsTheDecodedCommand := by
  refine ⟨fun s i hd => ?_, fun s i hwf => ?_⟩
  · cases he : exec i s with
    | next u => exact step_of_exec hd he
    | fault f => cases f
    | refused r => exact step_of_exec_refused hd he
  · rw [State.withFetchWord_cmd, tableCmd_encode]
    exact ⟨rfl, decode_encode hwf⟩

/-! ### The first transaction after reset (R32, R300) -/

/-- A step that answers shows the answer that its transaction has alone (R47). -/
theorem aloneAnswer_of_step {s t : State} (h : step s = .next t) : aloneAnswer s.cfg s.inp = some t.out := by
  obtain ⟨i, u, hd, he, rfl⟩ := step_cases h
  obtain ⟨o, he', hreset⟩ | ⟨r, he', -⟩ :=
    exec_of_same_transaction i (s := s) (s' := (State.resetWith s.cfg).present s.inp) rfl rfl
  · cases he'.symm.trans he
    rw [aloneAnswer, step_of_exec (s := (State.resetWith s.cfg).present s.inp) hd hreset]
    rfl
  · cases he'.symm.trans he

/-- A step refuses what the decoder refuses, or what its command refuses. -/
theorem step_refused_cases {s : State} {r : Refusal} (h : step s = .refused r) :
    (∃ e, decode s.inp.cmd = .error e ∧ r = .reservedCommand) ∨ ∃ i, decode s.inp.cmd = .ok i ∧ exec i s = .refused r := by
  cases hd : decode s.inp.cmd with
  | error e =>
    cases (step_of_reserved hd).symm.trans h
    exact .inl ⟨e, rfl, rfl⟩
  | ok i =>
    obtain ⟨o, -, he⟩ | ⟨r', he⟩ := exec_ends i s
    · cases (step_of_exec hd he).symm.trans h
    · cases (step_of_exec_refused hd he).symm.trans h
      exact .inr ⟨i, rfl, he⟩

/-- A transaction that is refused is refused for the same reason first after reset. -/
theorem step_refused_after_reset {s : State} {r : Refusal} (h : step s = .refused r) :
    step ((State.resetWith s.cfg).present s.inp) = .refused r := by
  obtain ⟨e, hd, rfl⟩ | ⟨i, hd, he⟩ := step_refused_cases h
  · exact step_of_reserved hd
  · obtain ⟨o, he', -⟩ | ⟨r', he', hreset⟩ :=
      exec_of_same_transaction i (s := s) (s' := (State.resetWith s.cfg).present s.inp) rfl rfl
    · cases he'.symm.trans he
    · cases he'.symm.trans he
      exact step_of_exec_refused hd hreset

/-- Settles O15: the fields after reset by definition, the first transaction by comparing it with the same one in `s`. -/
theorem resetLeavesTheConstantAndNoOutput : Obligations.ResetLeavesTheConstantAndNoOutput :=
  ⟨fun _ => ⟨rfl, rfl, rfl⟩, rfl, fun _ _ h => aloneAnswer_of_step h, fun _ _ h => step_refused_after_reset h⟩

/-! ### Allowed transactions answer, the others are refused (R271) -/

/-- The two breaches of a caller obligation: a reserved word (O4), the vector path without the capability (O1). -/
theorem breach_cases {c : Config} {x : Inputs} (h : Inputs.allowed c x = false) :
    (∃ e, decode x.cmd = .error e) ∨ ∃ i, decode x.cmd = .ok i ∧ i.path = some .vector ∧ c.vcap = false := by
  cases hd : decode x.cmd with
  | error e => exact .inl ⟨e, rfl⟩
  | ok i =>
    have hdef : definedOn i c = false := by simpa [Inputs.allowed, hd] using h
    cases hp : i.path with
    | none => simp [definedOn, hp] at hdef
    | some p => cases p with
      | vector => exact .inr ⟨i, rfl, hp, by simpa [definedOn, hp, Path.definedOn] using hdef⟩
      | fallback => simp [definedOn, hp, Path.definedOn] at hdef

/-- An allowed transaction is answered. -/
theorem step_of_allowed {s : State} (h : Inputs.allowed s.cfg s.inp = true) : ∃ t, step s = .next t := by
  cases hd : decode s.inp.cmd with
  | error e => simp [Inputs.allowed, hd] at h
  | ok i =>
    have hdef : definedOn i s.cfg = true := by simpa [Inputs.allowed, hd] using h
    obtain ⟨-, -, hanswers⟩ := stepRefusesExactlyTheBreaches
    exact hanswers s i hd fun hp => by simpa [definedOn, hp, Path.definedOn] using hdef

/-! ### Runs -/

section
variable {M : Host.Core} {n : Nat} {s t : M.State}

theorem run_succ_of_next {u : M.State} (h : M.step s = .next u) (n : Nat) : M.run (n + 1) s = M.run n u := by
  rw [Host.Core.run, h]

theorem run_succ_of_refused {r : M.Refusal} (h : M.step s = .refused r) (n : Nat) : M.run (n + 1) s = .refused r := by
  rw [Host.Core.run, h]

/-- A run goes on from the state that its first part reaches. -/
theorem run_add_of_next (h : M.run n s = .next t) (m : Nat) : M.run (n + m) s = M.run m t := by
  induction n generalizing s with
  | zero =>
    cases h
    rw [Nat.zero_add]
  | succ n ih =>
    obtain ⟨u, hu, hrun⟩ := run_succ_cases h
    rw [Nat.succ_add, run_succ_of_next hu, ih hrun]

/-- A refused step refuses every run that comes to it. -/
theorem run_refused_past {r : M.Refusal} (h : M.run n s = .next t) (hr : M.step t = .refused r) (k : Nat) :
    M.run (n + 1 + k) s = .refused r := by
  rw [Nat.add_assoc, Nat.add_comm 1 k, run_add_of_next h, run_succ_of_refused hr]

/-- A refused run comes to a state, before its end, whose step does not answer. -/
theorem run_refused_cases {r : M.Refusal} (h : M.run n s = .refused r) :
    ∃ (m : Nat) (t : M.State), m < n ∧ M.run m s = .next t ∧ ∀ u, M.step t ≠ .next u := by
  induction n generalizing s with
  | zero => cases h
  | succ n ih =>
    by_cases hs : ∃ u, M.step s = .next u
    · obtain ⟨u, hu⟩ := hs
      rw [run_succ_of_next hu] at h
      obtain ⟨m, t, hm, hrun, ht⟩ := ih h
      exact ⟨m + 1, t, Nat.succ_lt_succ hm, (run_succ_of_next hu m).trans hrun, ht⟩
    · exact ⟨0, s, Nat.succ_pos n, rfl, not_exists.mp hs⟩

end

/-- Settles O9: a breach refuses its step, and so every run past it; a step that does not answer presents a breach. -/
theorem refusalEndsTheRun : Obligations.RefusalEndsTheRun := by
  obtain ⟨hreserved, hcapability, -⟩ := stepRefusesExactlyTheBreaches
  refine ⟨fun s t n hrun hbreach => ?_, fun s n r hrun => ?_⟩
  · obtain ⟨e, hd⟩ | ⟨i, hd, hp, hcap⟩ := breach_cases hbreach
    · exact .inl ⟨⟨e, hd⟩, run_refused_past hrun (hreserved t e hd)⟩
    · exact .inr ⟨⟨i, hd, hp, run_keeps_cfg hrun ▸ hcap⟩, run_refused_past hrun (hcapability t i hd hp hcap)⟩
  · obtain ⟨m, t, hm, hreach, hstuck⟩ := run_refused_cases hrun
    refine ⟨m, t, hm, hreach, Bool.eq_false_iff.mpr fun hallowed => ?_⟩
    obtain ⟨u, hu⟩ := step_of_allowed hallowed
    exact hstuck u hu

/-! ### A run answers each transaction as alone (R47) -/

/-- Settles O16, by induction on what the host has still to present. -/
theorem runAnswersEachTransactionAsAlone : Obligations.RunAnswersEachTransactionAsAlone := by
  intro s hallowed
  induction htodo : s.caller.todo generalizing s with
  | nil =>
    obtain ⟨t, ht⟩ := step_of_allowed (hallowed s.inp (by simp [State.script]))
    have halone := aloneAnswer_of_step ht
    obtain ⟨o, -, rfl⟩ := step_answer_cases ht
    refine ⟨(s.answer o).handOver, ?_, rfl, by simp [htodo], by simp [State.script, htodo, halone]⟩
    rw [State.script, htodo]
    exact run_succ_of_next (M := core) ht 0
  | cons x todo ih =>
    obtain ⟨u, hu⟩ := step_of_allowed (hallowed s.inp (by simp [State.script]))
    have halone := aloneAnswer_of_step hu
    obtain ⟨o, -, rfl⟩ := step_answer_cases hu
    have hscript : s.script = s.inp :: ((s.answer o).handOver).script := by simp [State.script, htodo]
    rw [hscript] at hallowed ⊢
    obtain ⟨t, hrun, hcfg, hdone, hanswers⟩ :=
      ih (s.answer o).handOver (fun y hy => hallowed y (List.mem_cons_of_mem _ hy)) (by simp [htodo])
    refine ⟨t, (run_succ_of_next (M := core) hu _).trans hrun, hcfg, hdone, ?_⟩
    simpa [halone] using hanswers

/-- The answer of a transaction taken alone, where it has one. -/
def aloneOutputs (c : Config) (x : Inputs) : Outputs := (aloneAnswer c x).getD Outputs.undriven

/-- A run of allowed transactions, for a host that holds no answer at the start, ends with the answer of each alone. -/
theorem run_of_allowed_script {s : State} (h0 : s.caller.answers = [])
    (hallowed : ∀ x ∈ s.script, Inputs.allowed s.cfg x = true) :
    ∃ t : State, Host.Core.run core s.script.length s = .next t ∧
      t.caller.answers = s.script.map (aloneOutputs s.cfg) := by
  obtain ⟨t, hrun, -, -, hanswers⟩ := runAnswersEachTransactionAsAlone s hallowed
  have hsome := congrArg (List.map (·.getD Outputs.undriven)) hanswers
  rw [h0, List.map_nil, List.nil_append, List.map_map, List.map_map] at hsome
  exact ⟨t, hrun, (List.map_id _).symm.trans hsome⟩

/-- Settles O17: each transaction is paired with its answer alone, in either order. -/
theorem everyInterleavingGivesTheSameAnswers : Obligations.EveryInterleavingGivesTheSameAnswers := by
  intro s s' hc h0 h0' hperm hallowed
  obtain ⟨t, hrun, hanswers⟩ := run_of_allowed_script h0 hallowed
  obtain ⟨t', hrun', hanswers'⟩ :=
    run_of_allowed_script h0' fun x hx => hc ▸ hallowed x (hperm.mem_iff.mpr hx)
  have hzip (l : List Inputs) : l.zip (l.map (aloneOutputs s.cfg)) = l.map fun x => (x, aloneOutputs s.cfg x) := by
    simpa using List.zip_map' (f := id) (g := aloneOutputs s.cfg) (l := l)
  refine ⟨t, t', hrun, hrun', ?_⟩
  rw [hanswers, hanswers', ← hc, hzip, hzip]
  exact hperm.map _

end Sys2Proof.Machine

/-! ## The legal words (R67, R68, R72) and MULK's widths (R175)

A word is legal exactly when a row of the opcode map selects it (`decode_ok_iff_selected`). A row fixes `OP` and lets each
other field take the values that its format's mask allows, so its words are counted field by field. -/

namespace Sys2Proof

theorem decode_ok_iff_selected (w : CmdWord) : (∃ i, decode w = .ok i) ↔ ∃ r ∈ opcodeTable, r.Selects w := by
  have hread := decode_readsByTable w
  constructor
  · rintro ⟨i, hi⟩
    rw [hi] at hread
    obtain ⟨-, -, r, hr, hsel, -⟩ := hread
    exact ⟨r, hr, hsel⟩
  · rintro ⟨r, hr, hsel⟩
    obtain ⟨i, hi, -⟩ := (decode_mnemonic_iff_selects hr w).mpr hsel
    exact ⟨i, hi⟩

/-! ### The words of a row -/

/-- The values of a field whose bits under `mask` are zero. -/
def fieldValues {n : Nat} (mask : BitVec n) : List (BitVec n) :=
  ((List.finRange (2 ^ n)).map BitVec.ofFin).filter (· &&& mask = 0)

theorem mem_fieldValues {n : Nat} {mask x : BitVec n} : x ∈ fieldValues mask ↔ x &&& mask = 0 := by
  have hall : x ∈ (List.finRange (2 ^ n)).map BitVec.ofFin := List.mem_map.mpr ⟨x.toFin, List.mem_finRange _, rfl⟩
  simp [fieldValues, hall]

theorem nodup_fieldValues {n : Nat} (mask : BitVec n) : (fieldValues mask).Nodup := by
  have hinj : Function.Injective (BitVec.ofFin (w := n)) := fun _ _ h => congrArg BitVec.toFin h
  exact ((List.nodup_finRange _).map hinj).filter _

/-- What the fields `IMM`, `W`, `FB` of a format's words can hold (R61). -/
def Format.fieldTriples (f : Format) : List (Count × BitVec 2 × BitVec 1) :=
  fieldValues (immField f.mask) ×ˢ fieldValues (wField f.mask) ×ˢ fieldValues (fbField f.mask)

theorem Format.mem_fieldTriples {f : Format} {imm : Count} {w : BitVec 2} {fb : BitVec 1} :
    (imm, w, fb) ∈ f.fieldTriples ↔
      imm &&& immField f.mask = 0 ∧ w &&& wField f.mask = 0 ∧ fb &&& fbField f.mask = 0 := by
  rw [fieldTriples, List.mem_product, List.mem_product, mem_fieldValues, mem_fieldValues, mem_fieldValues]

/-- The words that a row selects. -/
def OpcodeRow.words (r : OpcodeRow) : List CmdWord :=
  r.format.fieldTriples.map fun x => pack x.1 x.2.1 x.2.2 r.op

theorem OpcodeRow.mem_words {r : OpcodeRow} {w : CmdWord} : w ∈ r.words ↔ r.Selects w := by
  rw [words, List.mem_map, selects_iff]
  constructor
  · rintro ⟨⟨imm, wd, fb⟩, hmem, rfl⟩
    obtain ⟨himm, hw, hfb⟩ := Format.mem_fieldTriples.mp hmem
    simp only [opField_pack, fbField_pack, wField_pack, immField_pack]
    exact ⟨trivial, hfb, hw, himm⟩
  · rintro ⟨hop, hfb, hw, himm⟩
    exact ⟨(immField w, wField w, fbField w), Format.mem_fieldTriples.mpr ⟨himm, hw, hfb⟩, hop ▸ pack_fields w⟩

theorem OpcodeRow.nodup_words (r : OpcodeRow) : r.words.Nodup := by
  have hinj : Function.Injective fun x : Count × BitVec 2 × BitVec 1 => pack x.1 x.2.1 x.2.2 r.op := by
    intro x y h
    obtain ⟨-, hfb, hw, himm⟩ := cmdWord_eq_iff_fields.mp h
    simp only [fbField_pack, wField_pack, immField_pack] at hfb hw himm
    exact Prod.ext himm (Prod.ext hw hfb)
  exact ((nodup_fieldValues _).product ((nodup_fieldValues _).product (nodup_fieldValues _))).map hinj

/-! ### All legal words -/

/-- The legal words, row by row. -/
def legalWords : List CmdWord := opcodeTable.flatMap OpcodeRow.words

theorem mem_legalWords {w : CmdWord} : w ∈ legalWords ↔ ∃ i, decode w = .ok i := by
  simp only [legalWords, List.mem_flatMap, OpcodeRow.mem_words, decode_ok_iff_selected]

/-- Rows with different `OP` share no word. -/
theorem nodup_legalWords : legalWords.Nodup := by
  have hops : opcodeTable.Pairwise fun r r' => r.op ≠ r'.op := by decide
  refine List.nodup_flatMap.mpr ⟨fun r _ => r.nodup_words, hops.imp fun hne w hw hw' => hne ?_⟩
  exact (opField_of_selects (OpcodeRow.mem_words.mp hw)).symm.trans (opField_of_selects (OpcodeRow.mem_words.mp hw'))

/-- The number of words of each format. -/
theorem Format.length_fieldTriples (f : Format) : f.fieldTriples.length =
    match f with
    | .p => 1
    | .w => 4
    | .wk => 2
    | .wi => 256
    | .v => 2
    | .vi => 128 := by
  have hlen : ∀ f : Format, f.fieldTriples.length = (fieldValues (immField f.mask)).length *
      ((fieldValues (wField f.mask)).length * (fieldValues (fbField f.mask)).length) := fun f => by
    rw [fieldTriples, List.length_product, List.length_product]
  rw [hlen]
  cases f <;> decide

theorem length_legalWords : legalWords.length = 867 := by
  simp [legalWords, opcodeTable, OpcodeRow.words, Format.length_fieldTriples]

/-- Settles O5: the words of the rows, which overlap nowhere. -/
theorem legalWordsAre867 : Obligations.LegalWordsAre867 :=
  ⟨legalWords, nodup_legalWords, length_legalWords, fun _ => mem_legalWords⟩

/-- Settles O6: the worked lines through the encoder, the reserved words by decoding them. -/
theorem workedEncodingsDecode : Obligations.WorkedEncodingsDecode := by
  have hline {p : Instr × CmdWord} (h : p.1.WellFormed ∧ encode p.1 = p.2) : decode p.2 = .ok p.1 ∧ encode p.1 = p.2 :=
    ⟨(decodeAcceptsExactlyTheEncodings p.2 p.1).mpr h, h.2⟩
  refine ⟨fun p hp => hline ?_, fun w hw => ?_⟩
  · fin_cases hp <;> exact ⟨rfl, rfl⟩
  · fin_cases hw <;> exact nofun

/-- Settles O40: what decodes is well formed, and `MULK` above 4 limbs is not. -/
theorem mulkHasNoWiderForm : Obligations.MulkHasNoWiderForm := by
  intro w hw
  have hill : ¬(Instr.mulk w).WellFormed := by rcases hw with rfl | rfl <;> decide
  refine ⟨fun cmd hd => hill (Machine.wellFormed_of_decode hd), fun s => ?_⟩
  rcases hw with rfl | rfl <;> rfl

end Sys2Proof

/-! ## Numbers and operand forms (R10, R24, R200) -/

namespace Sys2Proof.Machine

/-- R10: the value as a weighted sum over the limbs. -/
theorem val_eq_sum (a : List Limb) : val a = ∑ i ∈ Finset.range a.length, (a.getD i 0).toNat * 2 ^ (64 * i) := by
  induction a with
  | nil => rfl
  | cons x xs ih =>
    have htail : ∀ i ∈ Finset.range xs.length,
        ((x :: xs).getD (i + 1) 0).toNat * 2 ^ (64 * (i + 1)) = 2 ^ 64 * ((xs.getD i 0).toNat * 2 ^ (64 * i)) :=
      fun i _ => by rw [List.getD_cons_succ, pow_limbs_succ, Nat.mul_left_comm]
    rw [List.length_cons, Finset.sum_range_succ', Finset.sum_congr rfl htail, ← Finset.mul_sum, ← ih, val_cons]
    simp [Nat.add_comm]

/-- R10: limb i of `limbsOf`. -/
theorem limbsOf_getElem? {l i : Nat} (h : i < l) (v : Nat) : (limbsOf l v)[i]? = some (BitVec.ofNat 64 (v / 2 ^ (64 * i))) := by
  induction l generalizing i v with
  | zero => omega
  | succ l ih => cases i with
    | zero => simp [limbsOf]
    | succ i =>
      rw [limbsOf, List.getElem?_cons_succ, ih (by omega), Nat.div_div_eq_div_mul, pow_limbs_succ]

/-- Settles O1: the value limb by limb, its inverse limb by limb, and the value of the inverse. -/
theorem valAndLimbsAreWeightedSums : Obligations.ValAndLimbsAreWeightedSums :=
  ⟨val_eq_sum, fun _ v _ h => limbsOf_getElem? h v, fun l v => ⟨limbsOf_length l v, val_limbsOf l v⟩⟩

/-- Byte k of the operand is byte k of the port. -/
theorem bytes_getElem? (x : Inputs) (w : Width) (k : Fin 128) (h : k.val < 8 * w.limbs) :
    (x.bytes w)[k.val]? = some x.bi[k] := by
  simp [Inputs.bytes, h]

/-- Settles O2: the scalar operands and the lanes by definition, the sequences by their limbs, bytes and lengths. -/
theorem operandFormsAreThePortsNamedParts : Obligations.OperandFormsAreThePortsNamedParts :=
  fun x => ⟨rfl, rfl, fun w i h => ⟨wideA_getElem? x w i h, wideB_getElem? x w i h⟩,
    fun w => ⟨wideA_length x w, wideB_length x w, bytes_length x w⟩, fun _ => ⟨rfl, rfl⟩, bytes_getElem? x⟩

end Sys2Proof.Machine

/-! ## Add and subtract (R101, R103, R120 to R124)

`addChain` and `subChain` are one chain over two helpers. What R120 and R122 say limb by limb is proved once for the
chain over any helper; what R121, R123 and R124 say is arithmetic on the chains' values. -/

namespace Sys2Proof.Machine

/-! ### A chain over any helper -/

section
variable (f : Limb → Limb → Bool → Limb × Bool)

/-- The chain of rules R120 and R122 over the helper `f`. -/
def chain : List Limb → List Limb → Bool → List Limb × Bool
  | a :: as, b :: bs, c => ((f a b c).1 :: (chain as bs (f a b c).2).1, (chain as bs (f a b c).2).2)
  | [], _, c => ([], c)
  | _ :: _, [], c => ([], c)

theorem addChain_eq_chain (a b : List Limb) (c : Bool) : addChain a b c = chain adc a b c := by
  induction a generalizing b c with
  | nil => rfl
  | cons x xs ih => cases b with
    | nil => rfl
    | cons y ys => simp only [addChain, chain, ih]

theorem subChain_eq_chain (a b : List Limb) (c : Bool) : subChain a b c = chain sbb a b c := by
  induction a generalizing b c with
  | nil => rfl
  | cons x xs ih => cases b with
    | nil => rfl
    | cons y ys => simp only [subChain, chain, ih]

/-- The carry into limb `i`: the one that the chain over the limbs below leaves. -/
def carryInto (a b : List Limb) (i : Nat) : Bool := (chain f (a.take i) (b.take i) false).2

theorem carryInto_zero (a b : List Limb) : carryInto f a b 0 = false := rfl

theorem carryInto_length {a b : List Limb} (h : a.length = b.length) :
    carryInto f a b a.length = (chain f a b false).2 := by
  rw [carryInto, List.take_length, h, List.take_length]

/-- At each limb the chain is `f` of the two limbs and the carry that the chain below leaves. -/
theorem chain_step {a b : List Limb} {i : Nat} {x y : Limb} (ha : a[i]? = some x) (hb : b[i]? = some y) (c : Bool) :
    (chain f a b c).1[i]? = some (f x y (chain f (a.take i) (b.take i) c).2).1 ∧
      (chain f (a.take (i + 1)) (b.take (i + 1)) c).2 = (f x y (chain f (a.take i) (b.take i) c).2).2 := by
  induction i generalizing a b c with
  | zero => cases a <;> cases b <;> simp_all [chain]
  | succ i ih => cases a with
    | nil => cases ha
    | cons a as => cases b with
      | nil => cases hb
      | cons b bs => exact ih (a := as) (b := bs) ha hb (f a b c).2

end

/-! ### The commands: the helper's answer and the frame -/

section
variable (w : Width) (s : State)

theorem exec_add :
    exec (.add w) s = .next { s with out := { Outputs.undriven with
      r := (addN (s.inp.wideA w) (s.inp.wideB w)).1,
      cout := some (addN (s.inp.wideA w) (s.inp.wideB w)).2 } } := rfl

theorem exec_sub :
    exec (.sub w) s = .next { s with out := { Outputs.undriven with
      r := (subN (s.inp.wideA w) (s.inp.wideB w)).1,
      cout := some (subN (s.inp.wideA w) (s.inp.wideB w)).2 } } := rfl

theorem addN_wide_length : (addN (s.inp.wideA w) (s.inp.wideB w)).1.length = w.limbs := by
  rw [addN_length (by simp), wideA_length]

theorem subN_wide_length : (subN (s.inp.wideA w) (s.inp.wideB w)).1.length = w.limbs := by
  rw [subN_length (by simp), wideA_length]

/-- The chain over the operands, at each limb of the ports and past the last one. -/
theorem chain_wide (f : Limb → Limb → Bool → Limb × Bool) :
    (chain f (s.inp.wideA w) (s.inp.wideB w) false).2 = carryInto f (s.inp.wideA w) (s.inp.wideB w) w.limbs ∧
      ∀ i : Fin 16, i.val < w.limbs →
        (chain f (s.inp.wideA w) (s.inp.wideB w) false).1.getD i 0 =
          (f s.inp.a[i] s.inp.b[i] (carryInto f (s.inp.wideA w) (s.inp.wideB w) i)).1 ∧
        carryInto f (s.inp.wideA w) (s.inp.wideB w) (i + 1) =
          (f s.inp.a[i] s.inp.b[i] (carryInto f (s.inp.wideA w) (s.inp.wideB w) i)).2 := by
  constructor
  · rw [← carryInto_length f (by simp), wideA_length]
  · intro i hi
    obtain ⟨hlimb, hcarry⟩ := chain_step f (wideA_getElem? s.inp w i hi) (wideB_getElem? s.inp w i hi) false
    exact ⟨by rw [List.getD_eq_getElem?_getD, hlimb]; rfl, hcarry⟩

end

/-! ### The obligations, limb by limb -/

/-- Settles O22: the chain over `adc`, whose two parts are known. -/
theorem addChainsTheCarries : Obligations.AddChainsTheCarries := by
  refine fun w => ⟨by cases w <;> decide, fun s => ?_⟩
  obtain ⟨hlast, hstep⟩ := chain_wide w s adc
  refine ⟨(addN (s.inp.wideA w) (s.inp.wideB w)).1, carryInto adc (s.inp.wideA w) (s.inp.wideB w), ?_,
    addN_wide_length w s, rfl, fun i hi => ?_⟩
  · rw [exec_add, addN, addChain_eq_chain, hlast]
  · obtain ⟨hlimb, hcarry⟩ := hstep i hi
    rw [addN, addChain_eq_chain, hlimb, hcarry]
    exact ⟨adc_sum_toNat _ _ _, adc_carry_iff _ _ _⟩

/-- Settles O24: the chain over `sbb`, whose two parts are known. -/
theorem subChainsTheBorrows : Obligations.SubChainsTheBorrows := by
  refine fun w => ⟨by cases w <;> decide, fun s => ?_⟩
  obtain ⟨hlast, hstep⟩ := chain_wide w s sbb
  refine ⟨(subN (s.inp.wideA w) (s.inp.wideB w)).1, carryInto sbb (s.inp.wideA w) (s.inp.wideB w), ?_,
    subN_wide_length w s, rfl, fun i hi => ?_⟩
  · rw [exec_sub, subN, subChain_eq_chain, hlast]
  · obtain ⟨hlimb, hborrow⟩ := hstep i hi
    rw [subN, subChain_eq_chain, hlimb, hborrow]
    exact ⟨sbb_difference_toNat _ _ _, sbb_borrow_iff _ _ _⟩

/-! ### By value -/

/-- A remainder below `m` and a carry are the remainder and the quotient of what they add up to. -/
theorem mod_and_carry {r m v : Nat} {c : Bool} (hr : r < m) (h : r + m * c.toNat = v) :
    r = v % m ∧ (c = true ↔ m ≤ v) := by
  subst h
  refine ⟨by rw [Nat.add_mul_mod_self_left, Nat.mod_eq_of_lt hr], ?_⟩
  cases c <;> simp [hr]

/-- Settles O23: `addN_val`, read as remainder and carry. -/
theorem addIsExactWithItsCarry : Obligations.AddIsExactWithItsCarry := by
  intro w s
  have hlen := addN_wide_length w s
  have hval := addN_val (a := s.inp.wideA w) (b := s.inp.wideB w) (by simp)
  have hlt := val_lt (addN (s.inp.wideA w) (s.inp.wideB w)).1
  rw [wideA_length] at hval
  rw [hlen] at hlt
  exact ⟨_, _, exec_add w s, hlen, by rw [Nat.mul_comm, hval], mod_and_carry hlt hval⟩

/-- Settles O25: `subN_val`; the borrow is 1 exactly when the difference alone would be negative. -/
theorem subIsExactWithItsBorrow : Obligations.SubIsExactWithItsBorrow := by
  intro w s
  have hlen := subN_wide_length w s
  have hval := subN_val (a := s.inp.wideA w) (b := s.inp.wideB w) (by simp)
  have hlt := val_lt (subN (s.inp.wideA w) (s.inp.wideB w)).1
  have hb := val_lt (s.inp.wideB w)
  rw [wideA_length] at hval
  rw [hlen] at hlt
  rw [wideB_length] at hb
  refine ⟨_, _, exec_sub w s, hlen, by rw [Nat.mul_comm, hval], ?_⟩
  cases hborrow : (subN (s.inp.wideA w) (s.inp.wideB w)).2 with
  | false =>
    rw [hborrow, Bool.toNat_false, Nat.mul_zero] at hval
    simp only [Bool.false_eq_true, false_iff]
    omega
  | true =>
    rw [hborrow, Bool.toNat_true, Nat.mul_one] at hval
    simp only [true_iff]
    omega

/-! ### The sum taken apart again (R103, R124) -/

/-- Two numbers below `m`, each with a carry of `m`: the numbers and the carries are determined by the sums. -/
theorem remainder_carry_inj {r r' m : Nat} {c c' : Bool} (hr : r < m) (hr' : r' < m)
    (h : r + m * c.toNat = r' + m * c'.toNat) : r = r' ∧ c = c' := by
  cases c <;> cases c' <;> simp at h ⊢ <;> omega

theorem sbb_of_adc (a b : Limb) (c : Bool) : sbb (adc a b c).1 b c = (a, (adc a b c).2) := by
  have hsum := adc_exact a b c
  have hdiff := sbb_exact (adc a b c).1 b c
  obtain ⟨hlimb, hborrow⟩ := remainder_carry_inj (sbb (adc a b c).1 b c).1.isLt a.isLt
    (c := (adc a b c).2) (c' := (sbb (adc a b c).1 b c).2) (by omega)
  exact Prod.ext (BitVec.eq_of_toNat_eq hlimb) hborrow.symm

/-- Settles O21: `adc` is exact, and `sbb_of_adc` takes its sum apart. -/
theorem sbbUndoesAdc : Obligations.SbbUndoesAdc := by
  intro s u x co h ha hb hcin
  cases (exec_adc s).symm.trans h
  refine ⟨by rw [Nat.mul_comm, adc_exact], ?_⟩
  rw [exec_sbb, ha, hb, hcin, sbb_of_adc]

theorem subN_of_addN {a b : List Limb} (h : a.length = b.length) : subN (addN a b).1 b = (a, (addN a b).2) := by
  have hlen := addN_length h
  have hlen' := subN_length (a := (addN a b).1) (b := b) (hlen.trans h)
  have hsum := addN_val h
  have hdiff := subN_val (a := (addN a b).1) (b := b) (hlen.trans h)
  have hlt := val_lt (subN (addN a b).1 b).1
  rw [hlen', hlen] at hlt
  rw [hlen] at hdiff
  obtain ⟨hval, hborrow⟩ := remainder_carry_inj hlt (val_lt a)
    (c := (addN a b).2) (c' := (subN (addN a b).1 b).2) (by omega)
  exact Prod.ext (val_inj (hlen'.trans hlen) hval) hborrow.symm

/-- Settles O26: `subN_of_addN` on the operands. -/
theorem subRecoversTheAddend : Obligations.SubRecoversTheAddend := by
  intro w s u r c h ha hb
  cases (exec_add w s).symm.trans h
  rw [exec_sub, ha, hb, subN_of_addN (by simp)]

end Sys2Proof.Machine

/-! ## Multiply, shift, compare and square by value (R130 to R133, R140 to R144, R153, R155, R182) -/

namespace Sys2Proof.Machine

/-! ### The commands: the helper's answer and the frame -/

section
variable (w : Width) (bits : Count) (s : State)

theorem exec_muls :
    exec (.muls w) s = .next { s with out := { Outputs.undriven with r := mulsN (s.inp.wideA w) s.inp.s } } := rfl

theorem exec_shl :
    exec (.shl w bits) s = .next { s with out := { Outputs.undriven with
      r := shlN (s.inp.wideA w) bits.toNat } } := rfl

theorem exec_shr :
    exec (.shr w bits) s = .next { s with out := { Outputs.undriven with
      r := shrN (s.inp.wideA w) bits.toNat } } := rfl

end

/-! ### Multiply -/

/-- Settles O27: the answer of `MULS` is `mulsN`, whose length and value are known. -/
theorem mulsIsTheExactProduct : Obligations.MulsIsTheExactProduct :=
  fun w => ⟨by cases w <;> decide, fun s => ⟨_, exec_muls w s, by rw [mulsN_length, wideA_length], mulsN_val _ _⟩⟩

/-- Settles O28: the answer of `MULW` is `mulwN`, an exact multiplier. -/
theorem mulwIsTheExactProduct : Obligations.MulwIsTheExactProduct :=
  fun w => ⟨by cases w <;> decide, fun s =>
    ⟨_, exec_mulw w s, mulwN_exact w.limbs _ _ (wideA_length _ _) (wideB_length _ _)⟩⟩

/-- The squarer and the schoolbook product have the same length and value (R182). -/
theorem sqrN_eq_mulwN (a : List Limb) : sqrN a = mulwN a a :=
  val_inj (by rw [sqrN_length, mulwN_length, Nat.two_mul]) (by rw [sqrN_val, mulwN_val, Nat.pow_two])

/-- Settles O42: `SQR` answers `sqrN`, which is the product that `MULW` answers. -/
theorem squareEqualsSelfMultiply : Obligations.SquareEqualsSelfMultiply := by
  refine ⟨sqrN_eq_mulwN, fun w s h => ⟨_, exec_sqr w s, ?_⟩⟩
  rw [exec_mulw, h, sqrN_eq_mulwN]

/-! ### Shift: each limb and its neighbour (R140, R142) -/

/-- The lower neighbour of limb `i` is limb `i` of the sequence with `lower` put below it. -/
theorem shlChain_getElem? (k : Nat) {lower x y : Limb} {a : List Limb} {i : Nat} (hx : a[i]? = some x)
    (hy : (lower :: a)[i]? = some y) : (shlChain k lower a)[i]? = some ((x <<< k) ||| (y >>> (64 - k))) := by
  induction a generalizing lower i with
  | nil => cases hx
  | cons z zs ih => cases i with
    | zero =>
      cases hx
      cases hy
      rfl
    | succ i => exact ih hx hy

/-- The upper neighbour of limb `i` is limb `i + 1`, or 0 where there is none. -/
theorem shrChain_getElem? (k : Nat) {x y : Limb} {a : List Limb} {i : Nat} (hx : a[i]? = some x)
    (hy : a[i + 1]?.getD 0 = y) : (shrChain k a)[i]? = some ((x >>> k) ||| (y <<< (64 - k))) := by
  subst hy
  induction a generalizing i with
  | nil => cases hx
  | cons z zs ih => cases i with
    | zero =>
      cases hx
      cases zs <;> rfl
    | succ i => exact ih hx

section
variable {a : List Limb} {k : Nat} (hk : k ≠ 0)

theorem shlN_zero (a : List Limb) : shlN a 0 = a := rfl
theorem shrN_zero (a : List Limb) : shrN a 0 = a := rfl

include hk

theorem shlN_of_ne_zero : shlN a k = shlChain k 0 a := if_neg hk
theorem shrN_of_ne_zero : shrN a k = shrChain k a := if_neg hk

end

theorem count_toNat_ne_zero {bits : Count} (h : bits ≠ 0) : bits.toNat ≠ 0 :=
  fun h0 => h (BitVec.eq_of_toNat_eq h0)

/-- Rule R72's sum, in the order in which the commands with a count write it. -/
theorem pack_eq_sum (imm : Count) (w : BitVec 2) (fb : BitVec 1) (op : BitVec 7) :
    pack imm w fb op = BitVec.ofNat 16 (op.toNat + 128 * fb.toNat + 256 * w.toNat + 1024 * imm.toNat) := by
  rw [pack]
  congr 1
  omega

/-- Settles O29: limb by limb along `shlChain`. -/
theorem shlFillsFromTheLowerLimb : Obligations.ShlFillsFromTheLowerLimb := by
  refine fun w bits => ⟨pack_eq_sum bits w.code 0 0x14, fun s => ?_⟩
  refine ⟨_, exec_shl w bits s, by rw [shlN_length, wideA_length], ?_, fun hbits => ?_⟩
  · rintro rfl i hi
    exact wideA_getElem? s.inp w i hi
  · rw [shlN_of_ne_zero (count_toNat_ne_zero hbits)]
    refine ⟨?_, fun i hi => ?_⟩
    · simpa using shlChain_getElem? bits.toNat (lower := 0) (wideA_getElem? s.inp w 0 w.limbs_pos) rfl
    · exact shlChain_getElem? bits.toNat (wideA_getElem? s.inp w i.succ hi)
        (wideA_getElem? s.inp w i.castSucc (Nat.lt_of_succ_lt hi))

/-- Settles O30: limb by limb along `shrChain`; the top limb has no upper neighbour. -/
theorem shrFillsFromTheUpperLimb : Obligations.ShrFillsFromTheUpperLimb := by
  refine fun w bits => ⟨pack_eq_sum bits w.code 0 0x15, fun s => ?_⟩
  refine ⟨_, exec_shr w bits s, by rw [shrN_length, wideA_length], ?_, fun hbits => ?_⟩
  · rintro rfl i hi
    exact wideA_getElem? s.inp w i hi
  · rw [shrN_of_ne_zero (count_toNat_ne_zero hbits)]
    refine ⟨fun i hi => ?_, fun i hi => ?_⟩
    · have htop : (s.inp.wideA w)[i.val + 1]? = none := List.getElem?_eq_none (by rw [wideA_length, hi])
      simpa using shrChain_getElem? bits.toNat (y := 0) (wideA_getElem? s.inp w i (by omega)) (by rw [htop]; rfl)
    · exact shrChain_getElem? bits.toNat (wideA_getElem? s.inp w i.castSucc (Nat.lt_of_succ_lt hi))
        (congrArg (·.getD 0) (wideA_getElem? s.inp w i.succ hi))

/-! ### Shift by value (R141, R143, R144) -/

section
variable (w : Width) (bits : Count) (s : State)

theorem shlN_wide_val :
    val (shlN (s.inp.wideA w) bits.toNat) = val (s.inp.wideA w) * 2 ^ bits.toNat % 2 ^ (64 * w.limbs) := by
  rw [shlN_val _ bits.isLt, wideA_length]

theorem shrN_wide_val : val (shrN (s.inp.wideA w) bits.toNat) = val (s.inp.wideA w) / 2 ^ bits.toNat :=
  shrN_val _ bits.isLt

end

/-- Settles O31: the value laws of `shlN` and `shrN` at the width of the operand. -/
theorem shiftsByValue : Obligations.ShiftsByValue :=
  fun w bits s => ⟨_, _, exec_shl w bits s, exec_shr w bits s, shlN_wide_val w bits s, shrN_wide_val w bits s⟩

/-- The bits that a left shift by `k` within `n` bits loses are the top `k`. -/
theorem shiftLeft_then_right (v : Nat) {k n : Nat} (h : k ≤ n) : v * 2 ^ k % 2 ^ n / 2 ^ k = v % 2 ^ (n - k) := by
  have hn : 2 ^ n = 2 ^ (n - k) * 2 ^ k := by rw [← Nat.pow_add, Nat.sub_add_cancel h]
  rw [hn, Nat.mul_mod_mul_right, Nat.mul_div_cancel _ (Nat.two_pow_pos k)]

/-- The bits that a right shift by `k` loses are the bottom `k`. -/
theorem shiftRight_then_left {v n : Nat} (k : Nat) (hv : v < 2 ^ n) : v / 2 ^ k * 2 ^ k % 2 ^ n = v - v % 2 ^ k := by
  have hle : v / 2 ^ k * 2 ^ k ≤ v := Nat.div_mul_le_self _ _
  have hsplit := Nat.div_add_mod' v (2 ^ k)
  rw [Nat.mod_eq_of_lt (hle.trans_lt hv)]
  omega

/-- Settles O32: the value laws of the two shifts, one after the other. -/
theorem shiftRoundTripsClearBits : Obligations.ShiftRoundTripsClearBits := by
  intro w k s u l
  have hk : k.toNat ≤ 64 * w.limbs := by
    have := k.isLt
    have := w.limbs_pos
    omega
  have hv := val_lt (s.inp.wideA w)
  rw [wideA_length] at hv
  constructor
  · intro h hl
    cases (exec_shl w k s).symm.trans h
    exact ⟨_, exec_shr w k u, by rw [shrN_wide_val, hl, shlN_wide_val, shiftLeft_then_right _ hk]⟩
  · intro h hl
    cases (exec_shr w k s).symm.trans h
    exact ⟨_, exec_shl w k u, by rw [shlN_wide_val, hl, shrN_wide_val, shiftRight_then_left _ hv]⟩

/-! ### Compare and count by value (R153, R155) -/

/-- Settles O34: the three flags are the three results of `cmpN`, which compares the values. -/
theorem compareByValueIsTotal : Obligations.CompareByValueIsTotal := by
  intro w s
  have hlen : (s.inp.wideA w).length = (s.inp.wideB w).length := by simp
  refine ⟨_, _, _, exec_eq w s, exec_lt w s, exec_gt w s, decide_eq_true_iff.trans (cmpN_eq_iff hlen),
    decide_eq_true_iff.trans (cmpN_lt_iff hlen), decide_eq_true_iff.trans (cmpN_gt_iff hlen), ?_⟩
  cases cmpN (s.inp.wideA w) (s.inp.wideB w) <;> rfl

/-- Settles O36: the count and the bit length add up to the width. -/
theorem clzIsTheWidthLessTheBitLength : Obligations.ClzIsTheWidthLessTheBitLength := by
  intro w s
  have hsum := clzN_add_bitlen (s.inp.wideA w)
  rw [wideA_length] at hsum
  refine ⟨_, exec_clz w s, ?_, by omega⟩
  rw [clzN_wide_toNat]
  omega

end Sys2Proof.Machine

/-! ## The vector kernel: lanes, shifts, compares, moves and their identities (R203, R210 to R225)

Each command is the guard of its path around its own lane function or mask; its answer is then read lane by lane
(`guarded_lanes`, `maskOf_bit`). -/

namespace Sys2Proof.Machine

/-! ### The commands: the guard around the lane function -/

section
variable (p : Path) (count : Count) (s : State)

theorem exec_vshli : exec (.vshli p count) s = guarded p (lanes fun i => laneShl s.inp.a[i.val] count.toNat) s := rfl
theorem exec_vshri : exec (.vshri p count) s = guarded p (lanes fun i => laneShr s.inp.a[i.val] count.toNat) s := rfl
theorem exec_vshlv :
    exec (.vshlv p) s = guarded p (lanes fun i => laneShl s.inp.a[i.val] s.inp.b[i.val].toNat) s := rfl
theorem exec_vshrv :
    exec (.vshrv p) s = guarded p (lanes fun i => laneShr s.inp.a[i.val] s.inp.b[i.val].toNat) s := rfl
theorem exec_vltm :
    exec (.vltm p) s = guarded p (.mask (maskOf fun i => decide (s.inp.a[i.val].toNat < s.inp.b[i.val].toNat))) s := rfl
theorem exec_vgtm :
    exec (.vgtm p) s = guarded p (.mask (maskOf fun i => decide (s.inp.b[i.val].toNat < s.inp.a[i.val].toNat))) s := rfl
theorem exec_vmin :
    exec (.vmin p) s = guarded p
      (lanes fun i => if s.inp.a[i.val].toNat ≤ s.inp.b[i.val].toNat then s.inp.a[i.val] else s.inp.b[i.val]) s := rfl
theorem exec_vmax :
    exec (.vmax p) s = guarded p
      (lanes fun i => if s.inp.a[i.val].toNat ≤ s.inp.b[i.val].toNat then s.inp.b[i.val] else s.inp.a[i.val]) s := rfl
theorem exec_vblend :
    exec (.vblend p) s = guarded p
      (lanes fun i => if s.inp.k.getLsbD i.val then s.inp.b[i.val] else s.inp.a[i.val]) s := rfl
theorem exec_vperm : exec (.vperm p) s = guarded p (lanes fun i => s.inp.laneA (laneIndex s.inp.b[i.val])) s := rfl
theorem exec_vsplat : exec (.vsplat p) s = guarded p (lanes fun _ => s.inp.s) s := rfl
theorem exec_vzero : exec (.vzero p) s = guarded p (lanes fun _ => 0) s := rfl

end

/-! ### Vectors and masks, lane by lane -/

/-- The lanes of a guarded vector answer. -/
theorem lane_of_guarded {p : Path} {f : Fin 8 → Limb} {s t : State} (h : guarded p (lanes f) s = .next t) (i : Fin 8) :
    t.out.r[i.val]? = some (f i) := by
  obtain ⟨-, rfl⟩ := guarded_cases h
  exact lanes_getElem? f i

theorem lanes_congr {f g : Fin 8 → Limb} (h : ∀ i, f i = g i) : lanes f = lanes g := congrArg lanes (funext h)

/-- A blend whose selected lanes are those of `g` answers `g`. -/
theorem exec_vblend_of_selected {p : Path} {s : State} (hp : Path.definedOn p s.cfg = true) {g : Fin 8 → Limb}
    (h : ∀ i : Fin 8, (if s.inp.k.getLsbD i.val then s.inp.b[i.val] else s.inp.a[i.val]) = g i) :
    exec (.vblend p) s = .next { s with out := { Outputs.undriven with r := (lanes g).r } } := by
  rw [exec_vblend, lanes_congr h, guarded_next hp]
  rfl

theorem laneMask_ext {m m' : LaneMask} (h : ∀ i : Fin 8, m.getLsbD i.val = m'.getLsbD i.val) : m = m' :=
  BitVec.eq_of_getLsbD_eq fun i hi => h ⟨i, hi⟩

theorem maskOf_eq_zero_iff (f : Fin 8 → Bool) : maskOf f = 0 ↔ ∀ i, f i = false := by
  constructor
  · intro h i
    rw [← maskOf_bit f i, h]
    exact BitVec.getLsbD_zero
  · intro h
    exact laneMask_ext fun i => by rw [maskOf_bit, h i]; exact BitVec.getLsbD_zero.symm

theorem laneShl_of_ge (v : Limb) {c : Nat} (h : 64 ≤ c) : laneShl v c = 0 := if_pos h
theorem laneShr_of_ge (v : Limb) {c : Nat} (h : 64 ≤ c) : laneShr v c = 0 := if_pos h

/-! ### Shifts -/

/-- Settles O48: each lane by the exact formulas of the lane shifts. -/
theorem vectorImmediateShiftsByLane : Obligations.VectorImmediateShiftsByLane := by
  refine fun p count => ⟨⟨pack_eq_sum count 0 p.bit 0x35, pack_eq_sum count 0 p.bit 0x36⟩, fun s hcap => ?_⟩
  have hp := (Path.definedOn_iff p s.cfg).mpr hcap
  rw [exec_vshli, exec_vshri]
  obtain ⟨x, hx, hxlen, -, hxlane⟩ := guarded_lanes hp fun i => laneShl s.inp.a[i.val] count.toNat
  obtain ⟨y, hy, hylen, -, hylane⟩ := guarded_lanes hp fun i => laneShr s.inp.a[i.val] count.toNat
  refine ⟨x, y, hx, hy, hxlen, hylen, fun i => ⟨?_, ?_⟩⟩
  · rw [hxlane, laneShl_toNat]
  · rw [hylane, laneShr_toNat]

/-- Settles O49: a count of 64 or more by definition, the others by the exact formulas. -/
theorem vectorVariableShiftsByLane : Obligations.VectorVariableShiftsByLane := by
  refine fun p => ⟨by cases p <;> decide, fun s hcap => ?_⟩
  have hp := (Path.definedOn_iff p s.cfg).mpr hcap
  rw [exec_vshlv, exec_vshrv]
  obtain ⟨x, hx, hxlen, hxlane, hxget⟩ :=
    guarded_lanes hp fun i => laneShl s.inp.a[i.val] s.inp.b[i.val].toNat
  obtain ⟨y, hy, hylen, hylane, hyget⟩ :=
    guarded_lanes hp fun i => laneShr s.inp.a[i.val] s.inp.b[i.val].toNat
  refine ⟨x, y, hx, hy, hxlen, hylen, fun i => ⟨fun hge => ?_, fun _ => ?_⟩⟩
  · rw [hxlane, hylane, laneShl_of_ge _ hge, laneShr_of_ge _ hge]
    exact ⟨rfl, rfl⟩
  · rw [hxget, hyget]
    exact ⟨laneShl_toNat _ _, laneShr_toNat _ _⟩

/-! ### Compares, minimum, maximum -/

/-- Settles O51: the masks bit by bit, the two selections as minimum and maximum. -/
theorem vectorComparesMinAndMaxByLane : Obligations.VectorComparesMinAndMaxByLane := by
  refine fun p => ⟨by cases p <;> decide, fun s hcap => ?_⟩
  have hp := (Path.definedOn_iff p s.cfg).mpr hcap
  rw [exec_vmin, exec_vmax]
  obtain ⟨x, hx, hxlen, -, hxlane⟩ := guarded_lanes hp fun i =>
    if s.inp.a[i.val].toNat ≤ s.inp.b[i.val].toNat then s.inp.a[i.val] else s.inp.b[i.val]
  obtain ⟨y, hy, hylen, -, hylane⟩ := guarded_lanes hp fun i =>
    if s.inp.a[i.val].toNat ≤ s.inp.b[i.val].toNat then s.inp.b[i.val] else s.inp.a[i.val]
  refine ⟨_, _, x, y, (exec_vltm p s).trans (guarded_next hp _), (exec_vgtm p s).trans (guarded_next hp _), hx, hy,
    hxlen, hylen, fun i => ⟨?_, ?_, ?_, ?_⟩⟩
  · rw [maskOf_bit, decide_eq_true_iff]
  · rw [maskOf_bit, decide_eq_true_iff]
  · rw [hxlane, apply_ite BitVec.toNat, Nat.min_def]
  · rw [hylane, apply_ite BitVec.toNat, Nat.max_def]

/-- `VMAX` takes `b` where the lanes are equal and the blend takes `a`, which is then the same limb. -/
theorem blend_lt_eq_max (x y : Limb) :
    (if decide (x.toNat < y.toNat) then y else x) = if x.toNat ≤ y.toNat then y else x := by
  simp only [decide_eq_true_eq]
  by_cases hlt : x.toNat < y.toNat
  · rw [if_pos hlt, if_pos hlt.le]
  · by_cases hle : x.toNat ≤ y.toNat
    · rw [if_neg hlt, if_pos hle]
      exact BitVec.eq_of_toNat_eq (Nat.le_antisymm hle (Nat.le_of_not_lt hlt))
    · rw [if_neg hlt, if_neg hle]

theorem blend_gt_eq_min (x y : Limb) :
    (if decide (y.toNat < x.toNat) then y else x) = if x.toNat ≤ y.toNat then x else y := by
  rw [← ite_not]
  simp only [decide_eq_true_eq, Nat.not_lt]

/-- A blend under a given mask takes its lanes by the mask's bits. -/
theorem exec_vblend_of_mask {p : Path} {s : State} (hp : Path.definedOn p s.cfg = true) {f : Fin 8 → Bool}
    {g : Fin 8 → Limb} (h : ∀ i : Fin 8, (if f i then s.inp.b[i.val] else s.inp.a[i.val]) = g i) :
    exec (.vblend p) { s with inp := { s.inp with k := maskOf f } } =
      .next { s with inp := { s.inp with k := maskOf f }, out := { Outputs.undriven with r := (lanes g).r } } :=
  exec_vblend_of_selected (s := { s with inp := { s.inp with k := maskOf f } }) hp fun i => by
    rw [maskOf_bit]
    exact h i

/-- Settles O54: every clause is about one lane at a time, a comparison of two numbers. -/
theorem vectorCompareIdentities : Obligations.VectorCompareIdentities := by
  intro p s hcap
  have hp := (Path.definedOn_iff p s.cfg).mpr hcap
  have heq (i : Fin 8) : s.inp.a[i.val] = s.inp.b[i.val] ↔ s.inp.a[i.val].toNat = s.inp.b[i.val].toNat :=
    BitVec.toNat_inj.symm
  refine ⟨_, _, _, _, _, (exec_vltm p s).trans (guarded_next hp _), (exec_vgtm p s).trans (guarded_next hp _),
    (exec_veq p s).trans (guarded_next hp _), (exec_vmin p s).trans (guarded_next hp _),
    (exec_vmax p s).trans (guarded_next hp _), ?_, ?_, ?_, fun i => ?_, ?_⟩
  · exact (exec_vblend_of_mask hp fun i => blend_lt_eq_max s.inp.a[i.val] s.inp.b[i.val] :)
  · exact (exec_vblend_of_mask hp fun i => blend_gt_eq_min s.inp.a[i.val] s.inp.b[i.val] :)
  · refine laneMask_ext fun i => ?_
    rw [BitVec.getLsbD_and, maskOf_bit, maskOf_bit, ← Bool.decide_and]
    exact (decide_eq_false fun h => Nat.lt_asymm h.1 h.2).trans BitVec.getLsbD_zero.symm
  · rw [BitVec.getLsbD_or, maskOf_bit, maskOf_bit, heq, ← Bool.decide_or, decide_eq_false_iff_not]
    omega
  · simp only [maskOf_eq_zero_iff, decide_eq_true_iff, decide_eq_false_iff_not, heq, ← forall_and]
    exact forall_congr' fun i => by omega

/-! ### Moves -/

/-- Settles O52: the blend is the selection itself; the index of a permutation is a lane of the port. -/
theorem vectorBlendAndPermuteByLane : Obligations.VectorBlendAndPermuteByLane := by
  refine fun p => ⟨by cases p <;> decide, fun s hcap => ?_⟩
  have hp := (Path.definedOn_iff p s.cfg).mpr hcap
  rw [exec_vblend, exec_vperm]
  obtain ⟨x, hx, hxlen, hxlane, -⟩ := guarded_lanes hp fun i =>
    if s.inp.k.getLsbD i.val then s.inp.b[i.val] else s.inp.a[i.val]
  obtain ⟨y, hy, hylen, hylane, -⟩ := guarded_lanes hp fun i => s.inp.laneA (laneIndex s.inp.b[i.val])
  refine ⟨x, y, hx, hy, hxlen, hylen, fun i => ⟨hxlane i, ?_⟩⟩
  have hindex : s.inp.b[i.val].toNat % 8 < 16 := by omega
  rw [hylane, Vector.getElem?_eq_getElem hindex]
  rfl

/-- Settles O53: the lane function is constant. -/
theorem vectorSplatAndZero : Obligations.VectorSplatAndZero := by
  refine fun p => ⟨by cases p <;> decide, fun s hcap => ?_⟩
  have hp := (Path.definedOn_iff p s.cfg).mpr hcap
  exact ⟨(exec_vsplat p s).trans (guarded_next hp _), (exec_vzero p s).trans (guarded_next hp _)⟩

/-- A count fits a lane. -/
theorem lane_of_count_toNat (c : Count) : (BitVec.ofNat 64 c.toNat).toNat = c.toNat := by
  have := c.isLt
  rw [BitVec.toNat_ofNat, Nat.mod_eq_of_lt (by omega)]

/-- The lane whose value is `i` names lane `i`. -/
theorem laneIndex_ofNat (i : Fin 8) : laneIndex (BitVec.ofNat 64 i.val) = i := by
  revert i
  decide

/-- Blending the other way round under the complemented mask takes the same lane. -/
theorem blend_not (k : LaneMask) (i : Fin 8) (x y : Limb) :
    (if (~~~k).getLsbD i.val then x else y) = if k.getLsbD i.val then y else x := by
  rw [BitVec.getLsbD_not, decide_eq_true i.isLt, Bool.true_and]
  cases k.getLsbD i.val <;> rfl

/-- Settles O55: each clause is an identity of one lane. -/
theorem vectorMoveIdentities : Obligations.VectorMoveIdentities := by
  intro p s u hcap hcfg
  have hp := (Path.definedOn_iff p s.cfg).mpr hcap
  have hpu : Path.definedOn p u.cfg = true := hcfg ▸ hp
  refine ⟨fun t ht ha hb => ?_, fun t ht ha hb => ?_, fun c hb => ⟨?_, ?_⟩, fun hb => ?_, fun hab hk => ?_⟩
  · refine ⟨_, (exec_vsub p u).trans (guarded_next hpu _), fun i => (lanes_getElem? _ i).trans ?_⟩
    have hsum := Option.some.inj ((ha i).symm.trans (lane_of_guarded ht i))
    rw [hsum, hb]
    exact congrArg some (BitVec.add_sub_cancel _ _)
  · refine ⟨_, (exec_vxor p u).trans (guarded_next hpu _), fun i => (lanes_getElem? _ i).trans ?_⟩
    have hxor := Option.some.inj ((ha i).symm.trans (lane_of_guarded ht i))
    rw [hxor, hb]
    exact congrArg some ((BitVec.xor_assoc ..).trans ((congrArg _ BitVec.xor_self).trans BitVec.xor_zero))
  · rw [exec_vshlv, exec_vshli]
    simp only [hb, lane_of_count_toNat]
  · rw [exec_vshrv, exec_vshri]
    simp only [hb, lane_of_count_toNat]
  · refine ⟨_, (exec_vperm p s).trans (guarded_next hp _), fun i => (lanes_getElem? _ i).trans ?_⟩
    rw [hb, laneIndex_ofNat]
    rfl
  · refine ⟨_, _, exec_vblend_of_selected hp fun _ => rfl, exec_vblend_of_selected hpu fun i => ?_, rfl⟩
    obtain ⟨ha, hb⟩ := hab i
    rw [ha, hb, hk, blend_not]

/-! ### Lane independence (R203) -/

/-- A lane-wise command answers a vector or a mask, lane i computed from lane i of `A` and of `B` and bit i of `K` by one
function for all lanes and all states. -/
inductive LaneWise (i : Instr) : Prop
  | vector (p : Path) (f : Limb → Limb → Bool → Limb)
      (h : ∀ s, exec i s = guarded p (lanes fun j => f s.inp.a[j.val] s.inp.b[j.val] (s.inp.k.getLsbD j.val)) s)
  | mask (p : Path) (f : Limb → Limb → Bool → Bool)
      (h : ∀ s, exec i s = guarded p (.mask (maskOf fun j => f s.inp.a[j.val] s.inp.b[j.val] (s.inp.k.getLsbD j.val))) s)

theorem laneWise_of_flag {i : Instr} (h : i.laneWise = true) : LaneWise i := by
  cases i with
  | adc | sbb | mul64 | sqr64 | add _ | sub _ | muls _ | mulw _ | shl _ _ | shr _ _ | eq _ | lt _ | gt _ | clz _ | iszero _
  | iseven _ | mulk _ | sqr _ | veq _ | vperm _ | vsplat _ | vzero _ | tobe _ | tole _ | frombe _ | fromle _ | vcapq =>
    cases h
  | vxor p => exact .vector p (fun x y _ => x ^^^ y) (exec_vxor p)
  | vand p => exact .vector p (fun x y _ => x &&& y) (exec_vand p)
  | vor p => exact .vector p (fun x y _ => x ||| y) (exec_vor p)
  | vadd p => exact .vector p (fun x y _ => x + y) (exec_vadd p)
  | vsub p => exact .vector p (fun x y _ => x - y) (exec_vsub p)
  | vshli p n => exact .vector p (fun x _ _ => laneShl x n.toNat) (exec_vshli p n)
  | vshri p n => exact .vector p (fun x _ _ => laneShr x n.toNat) (exec_vshri p n)
  | vshlv p => exact .vector p (fun x y _ => laneShl x y.toNat) (exec_vshlv p)
  | vshrv p => exact .vector p (fun x y _ => laneShr x y.toNat) (exec_vshrv p)
  | vltm p => exact .mask p (fun x y _ => decide (x.toNat < y.toNat)) (exec_vltm p)
  | vgtm p => exact .mask p (fun x y _ => decide (y.toNat < x.toNat)) (exec_vgtm p)
  | vmin p => exact .vector p (fun x y _ => if x.toNat ≤ y.toNat then x else y) (exec_vmin p)
  | vmax p => exact .vector p (fun x y _ => if x.toNat ≤ y.toNat then y else x) (exec_vmax p)
  | vblend p => exact .vector p (fun x y k => if k then y else x) (exec_vblend p)

/-- The greatest limb in every limb of `A`, 1 in every limb of `B`: every lane of the sum is 0, but a carry enters every
limb of `ADD.8` above the first. -/
def carryingSum : State :=
  (State.resetWith ⟨false⟩).present
    { Inputs.zero with a := Vector.replicate 16 (BitVec.allOnes 64), b := Vector.replicate 16 1 }

/-- Settles O45: lane i of the answer is one function of the three agreeing values; `carryingSum` tells `VADD` from
`ADD.8`. -/
theorem lanesAreIndependent : Obligations.LanesAreIndependent := by
  refine ⟨fun i hi s s' t t' ht ht' j ha hb hk => ?_, carryingSum, _, _, rfl, rfl, by decide⟩
  cases laneWise_of_flag hi with
  | vector p f h =>
    rw [h] at ht ht'
    refine ⟨by rw [lane_of_guarded ht, lane_of_guarded ht', ha, hb, hk], ?_⟩
    obtain ⟨-, rfl⟩ := guarded_cases ht
    obtain ⟨-, rfl⟩ := guarded_cases ht'
    rfl
  | mask p f h =>
    rw [h] at ht ht'
    obtain ⟨-, rfl⟩ := guarded_cases ht
    obtain ⟨-, rfl⟩ := guarded_cases ht'
    refine ⟨rfl, congrArg some ((maskOf_bit _ j).trans (Eq.trans ?_ (maskOf_bit _ j).symm))⟩
    rw [ha, hb, hk]

end Sys2Proof.Machine

/-! ## Byte interop (R250 to R254) -/

namespace Sys2Proof.Machine

/-! ### The commands: the helper's answer and the frame -/

section
variable (w : Width) (s : State)

theorem exec_tobe :
    exec (.tobe w) s = .next { s with out := { Outputs.undriven with
      bo := bytesBE (8 * w.limbs) (val (s.inp.wideA w)) } } := rfl

theorem exec_tole :
    exec (.tole w) s = .next { s with out := { Outputs.undriven with
      bo := bytesLE (8 * w.limbs) (val (s.inp.wideA w)) } } := rfl

theorem exec_frombe :
    exec (.frombe w) s = .next { s with out := { Outputs.undriven with
      r := limbsOf w.limbs (sumBE (s.inp.bytes w)) } } := rfl

theorem exec_fromle :
    exec (.fromle w) s = .next { s with out := { Outputs.undriven with
      r := limbsOf w.limbs (sumLE (s.inp.bytes w)) } } := rfl

end

/-! ### Byte k by its position, the value by its weighted sum -/

theorem bytesLE_getD_toNat {n k : Nat} (h : k < n) (v : Nat) :
    ((bytesLE n v).getD k 0).toNat = v / 2 ^ (8 * k) % 256 := by
  simp [bytesLE, List.getD_eq_getElem?_getD, h]

theorem bytesBE_getD_toNat {n k : Nat} (h : k < n) (v : Nat) :
    ((bytesBE n v).getD k 0).toNat = v / 2 ^ (8 * (n - 1 - k)) % 256 := by
  simp [bytesBE, List.getD_eq_getElem?_getD, h]

theorem sumLE_eq_sum (y : List Byte) :
    sumLE y = ∑ k ∈ Finset.range y.length, (y.getD k 0).toNat * 2 ^ (8 * k) := by
  induction y with
  | nil => rfl
  | cons b bs ih =>
    have htail : ∀ k ∈ Finset.range bs.length,
        ((b :: bs).getD (k + 1) 0).toNat * 2 ^ (8 * (k + 1)) = 256 * ((bs.getD k 0).toNat * 2 ^ (8 * k)) :=
      fun k _ => by rw [List.getD_cons_succ, Nat.mul_succ, Nat.pow_add]; ring
    rw [List.length_cons, Finset.sum_range_succ', Finset.sum_congr rfl htail, ← Finset.mul_sum, ← ih, sumLE]
    simp [Nat.add_comm]

theorem sumBE_eq_sum (y : List Byte) :
    sumBE y = ∑ k ∈ Finset.range y.length, (y.getD k 0).toNat * 2 ^ (8 * (y.length - 1 - k)) := by
  induction y with
  | nil => rfl
  | cons b bs ih =>
    have htail : ∀ k ∈ Finset.range bs.length,
        ((b :: bs).getD (k + 1) 0).toNat * 2 ^ (8 * (bs.length - (k + 1))) =
          (bs.getD k 0).toNat * 2 ^ (8 * (bs.length - 1 - k)) :=
      fun k _ => by rw [List.getD_cons_succ, Nat.sub_sub, Nat.add_comm 1 k]
    rw [List.length_cons, Nat.add_sub_cancel, Finset.sum_range_succ', Finset.sum_congr rfl htail, ← ih, sumBE]
    simp [Nat.add_comm]

/-- The bytes of an operand hold exactly the bits of its limbs. -/
theorem pow_bytes (n : Nat) : 2 ^ (8 * (8 * n)) = 2 ^ (64 * n) := by rw [← Nat.mul_assoc]

section
variable (x : Inputs) (w : Width)

theorem sumBE_bytes_lt : sumBE (x.bytes w) < 2 ^ (64 * w.limbs) := by
  have h := sumBE_lt (x.bytes w)
  rwa [bytes_length, pow_bytes] at h

theorem sumLE_bytes_lt : sumLE (x.bytes w) < 2 ^ (64 * w.limbs) := by
  have h := sumLE_lt (x.bytes w)
  rwa [bytes_length, pow_bytes] at h

theorem val_limbsOf_sumBE : val (limbsOf w.limbs (sumBE (x.bytes w))) = sumBE (x.bytes w) := by
  rw [val_limbsOf, Nat.mod_eq_of_lt (sumBE_bytes_lt x w)]

theorem val_limbsOf_sumLE : val (limbsOf w.limbs (sumLE (x.bytes w))) = sumLE (x.bytes w) := by
  rw [val_limbsOf, Nat.mod_eq_of_lt (sumLE_bytes_lt x w)]

/-- The value of the operand fits its bytes. -/
theorem val_wideA_mod_bytes : val (x.wideA w) % 2 ^ (8 * (8 * w.limbs)) = val (x.wideA w) := by
  have h := val_lt (x.wideA w)
  rw [wideA_length] at h
  rw [pow_bytes, Nat.mod_eq_of_lt h]

theorem limbsOf_val_wideA : limbsOf w.limbs (val (x.wideA w)) = x.wideA w := by
  have h := limbsOf_val (x.wideA w)
  rwa [wideA_length] at h

end

/-! ### The obligations -/

/-- Settles O56: the two arrays are defined by the position of each byte. -/
theorem toBytesByPosition : Obligations.ToBytesByPosition :=
  fun w => ⟨by cases w <;> decide, fun s => ⟨_, _, exec_tobe w s, exec_tole w s, bytesBE_length _ _, bytesLE_length _ _,
    fun _ hk => ⟨bytesBE_getD_toNat hk _, bytesLE_getD_toNat hk _⟩⟩⟩

/-- Settles O57: the weighted sum of the bytes fits the limbs. -/
theorem fromBytesByWeightedSum : Obligations.FromBytesByWeightedSum := by
  refine fun w => ⟨by cases w <;> decide, fun s => ⟨_, _, exec_frombe w s, exec_fromle w s, limbsOf_length _ _,
    limbsOf_length _ _, ?_, ?_⟩⟩
  · rw [val_limbsOf_sumBE, sumBE_eq_sum, bytes_length]
  · rw [val_limbsOf_sumLE, sumLE_eq_sum, bytes_length]

/-- Settles O58: the byte array and the limbs are two ways to write one number, and neither loses a bit of it. -/
theorem byteConversionsRoundTrip : Obligations.ByteConversionsRoundTrip := by
  refine fun w s u y r => ⟨fun h hu => ?_, fun h hu => ?_, fun h hu => ?_, fun h hu => ?_⟩
  · cases (exec_tobe w s).symm.trans h
    rw [exec_frombe, hu, sumBE_bytesBE, val_wideA_mod_bytes, limbsOf_val_wideA]
  · cases (exec_tole w s).symm.trans h
    rw [exec_fromle, hu, sumLE_bytesLE, val_wideA_mod_bytes, limbsOf_val_wideA]
  · cases (exec_frombe w s).symm.trans h
    rw [exec_tobe, hu, val_limbsOf_sumBE, ← bytes_length s.inp w, bytesBE_sumBE]
  · cases (exec_fromle w s).symm.trans h
    rw [exec_tole, hu, val_limbsOf_sumLE, ← bytes_length s.inp w, bytesLE_sumLE]

end Sys2Proof.Machine
